-- ==== Sys2Proof/Word.lean ====
section
/-! DEFINITION. The machine's words: a memory cell, a register value, a register index (R3, R10, R11). -/

namespace Sys2Proof

/-- One memory cell, opcode byte or operand byte: `CELL` = 8 bits (R3). -/
abbrev Byte := BitVec 8

/-- One general register or PC: `XLEN` = 16 bits, an unsigned integer 0 to 65535 (R3, R11, R14). -/
abbrev Word := BitVec 16

/-- A checked register index: `NREG` = 8 registers, 0 to 7 (R3, R10). -/
abbrev Reg := Fin 8

end Sys2Proof
end

