-- ==== Sys2Proof/Config.lean ====
section
/-! DEFINITION. The parameters the hardware fixes (R3). None is left open, so there is no free value here. -/

namespace Sys2Proof.Config

/-- `MEMSIZE`: the number of memory cells; valid addresses are 0 to 255 (R3, R37). -/
abbrev memSize : Nat := 256

/-- `SPREG`: the general register that is the stack pointer (R3, R12). -/
abbrev spReg : Reg := 7

/-- `SP_RESET`: register 7 after reset (R3, R22). -/
abbrev spReset : Word := 255#16

/-- `PC_RESET`: PC after reset (R3, R22). -/
abbrev pcReset : Word := 0#16

/-- What a cell no entry lists reads as: memory is zeroed at reset (R22). -/
abbrev unlistedCell : Byte := 0#8

end Sys2Proof.Config
end

