-- ==== Sys2Proof/Machine/State.lean ====
section
/-! DEFINITION. The whole state of the hardware (10_state.md: "Nothing else is state"), the reasons a step can stop,
and the state after reset (R22, R140). -/

namespace Sys2Proof.Machine

/-- `MEM`: a list of (address, byte) pairs in one canonical form (`Memory.wf`): addresses strictly rising and below
256, no entry equal to what an unlisted cell reads as (R20, R22). -/
abbrev Memory := List Host.Cell

/-- `RUN` (R17). HALTED is entered only by HLT, FAULTED only by a fault, and both are terminal (R75). -/
inductive RunState where
  | running
  | halted
  | faulted
  deriving DecidableEq, Repr

/-- The fault causes (R120). -/
inductive FaultCause where
  /-- A memory address is above 255: fetch, PUSH, CALL, POP, RET (R121). -/
  | outOfBounds
  /-- A register-index operand is above 7 (R122). -/
  | invalidRegister
  /-- DIV or MOD with a zero divisor (R123). -/
  | divisionByZero
  /-- The opcode byte is not one of the 16 (R124). -/
  | unknownInstruction
  /-- In the taxonomy, raised by nothing (R91, R125). -/
  | unsupportedOperation
  deriving DecidableEq, Repr

/-- What a `raise` names: the cause and the offending address, index or opcode byte (R5, R120). -/
structure Raised where
  cause : FaultCause
  info : Option Nat
  deriving DecidableEq, Repr

/-- `FAULT` when it is set (R18): `pc` is PC at the start of the faulting step. -/
structure FaultRecord where
  cause : FaultCause
  info : Option Nat
  pc : Word
  deriving DecidableEq, Repr

/-- The state tuple of 10_state.md. `fl` is true for the spec's `FL = 1`. -/
structure State where
  /-- `x[0]` to `x[7]`; `x[7]` is SP (R10, R11, R12). -/
  regs : Vector Word 8
  /-- `PC`, 16 bits (R14). -/
  pc : Word
  /-- `FL`, one bit (R16). -/
  fl : Bool
  /-- `RUN` (R17). -/
  run : RunState
  /-- `FAULT` (R18). -/
  fault : Option FaultRecord
  /-- `OUT`, oldest first (R19). -/
  out : List Word
  /-- `MEM` (R20). -/
  mem : Memory
  deriving DecidableEq, Repr

/-- Why no step exists. A FAULT OF THE HARDWARE IS NOT HERE: it is a next state (R128). -/
inductive Fault where
  /-- Raised by `step` when `RUN = HALTED`: "there is no step" (R75). The program ended with success. Safe (log 1). -/
  | engineHalted
  /-- Raised by `step` when `RUN = FAULTED`: "there is no step" (R75). The program ended in a fault. Safe (log 1). -/
  | engineFaulted
  deriving DecidableEq, Repr

/-- Why an instruction has no meaning. Nothing raises it: all 16 instructions have their meaning. -/
inductive Refusal where
  /-- Raised by an arm of `exec` that has no meaning yet; there is none. Safe. -/
  | notModelled (mnemonic : String)
  deriving DecidableEq, Repr

/-- The answer of one instruction or one step. -/
abbrev Result := Host.Outcome State Fault Refusal

/-- The machine right after reset (R22, R140). `x[0]` to `x[6]` and `FL` are 0 by the spec's decision D11 (log 2). -/
def State.reset : State where
  regs := #v[0#16, 0#16, 0#16, 0#16, 0#16, 0#16, 0#16, Config.spReset]
  pc := Config.pcReset
  fl := false
  run := .running
  fault := none
  out := []
  mem := []

end Sys2Proof.Machine
end

