-- ==== Sys2Proof/Machine/Memory.lean ====
section
/-! DEFINITION. The cells: reading and writing one cell of the sparse memory, and its canonical form (R20, R22). -/

namespace Sys2Proof.Machine

/-- The byte of the cell at `a`; an unlisted cell reads 0, as reset leaves it (R22). -/
def Memory.read : Memory → Nat → Byte
  | [], _ => Config.unlistedCell
  | (k, b) :: m, a => if k = a then b else Memory.read m a

/-- A listed entry, or none where `v` is what an unlisted cell reads as. -/
def Memory.entry (a : Nat) (v : Byte) (m : Memory) : Memory :=
  if v = Config.unlistedCell then m else (a, v) :: m

/-- Store `v` in the cell at `a` and change no other cell (R32), keeping the canonical form. -/
def Memory.write : Memory → Nat → Byte → Memory
  | [], a, v => Memory.entry a v []
  | (k, b) :: m, a, v =>
    if k < a then (k, b) :: Memory.write m a v
    else if k = a then Memory.entry a v m
    else Memory.entry a v ((k, b) :: m)

/-- Store bytes at ascending addresses from `a` up. -/
def Memory.writeBytes : Memory → Nat → List Byte → Memory
  | m, _, [] => m
  | m, a, b :: bs => Memory.writeBytes (Memory.write m a b) (a + 1) bs

/-- The canonical form, all addresses from `lo` up. -/
def Memory.wfFrom : Nat → Memory → Bool
  | _, [] => true
  | lo, (k, b) :: m => decide (lo ≤ k) && decide (k < Config.memSize) && decide (b ≠ Config.unlistedCell) && Memory.wfFrom (k + 1) m

/-- The canonical form: addresses strictly rising and below 256, no entry that an unlisted cell would read as. -/
def Memory.wf (m : Memory) : Bool := Memory.wfFrom 0 m

end Sys2Proof.Machine
end

