-- ==== Sys2Proof/Machine/Ops.lean ====
section
/-! DEFINITION. The named operations over registers, memory, PC and the run state, and TAKING A FAULT (R128). -/

namespace Sys2Proof.Machine

/-- Read general register `r` (R5 `x[i]`, R10). -/
def State.reg (s : State) (r : Reg) : Word := s.regs[r.val]

/-- Write general register `r`; no register is hard-wired (R10, R11). -/
def State.setReg (s : State) (r : Reg) (v : Word) : State := { s with regs := s.regs.set r.val v }

/-- `SP` is register 7 and nothing else (R12). -/
def State.sp (s : State) : Word := s.reg Config.spReg

/-- Write `SP`. -/
def State.setSp (s : State) (v : Word) : State := s.setReg Config.spReg v

/-- `PC <- target`: any 16-bit value, unchecked until the next fetch (R14, R110). -/
def State.setPc (s : State) (v : Word) : State := { s with pc := v }

/-- `FL <- v` (R16). -/
def State.setFl (s : State) (v : Bool) : State := { s with fl := v }

/-- `OUT <- OUT ++ [v]` (R19). -/
def State.emit (s : State) (v : Word) : State := { s with out := s.out ++ [v] }

/-- `RUN <- v` (R17). -/
def State.setRun (s : State) (v : RunState) : State := { s with run := v }

/-- The sequential advance `PC <- PC + n`. A fetch succeeded, so `PC` is at most 253 and the sum does not wrap (R15, log 7). -/
def State.advance (s : State) (n : Nat) : State := s.setPc (s.pc + BitVec.ofNat 16 n)

/-- The causes as raised by the rules (R120). -/
def outOfBounds (addr : Nat) : Raised := ⟨.outOfBounds, some addr⟩

/-- InvalidRegister names the whole operand byte (R13, R122). -/
def invalidRegister (b : Byte) : Raised := ⟨.invalidRegister, some b.toNat⟩

/-- DivisionByZero names nothing (R123). -/
def divisionByZero : Raised := ⟨.divisionByZero, none⟩

/-- UnknownInstruction names the opcode byte (R124). -/
def unknownInstruction (ir : Byte) : Raised := ⟨.unknownInstruction, some ir.toNat⟩

/-- The numeric cause codes (R120, D9). -/
def FaultCause.code : FaultCause → Nat
  | .outOfBounds => 1
  | .invalidRegister => 2
  | .divisionByZero => 3
  | .unknownInstruction => 4
  | .unsupportedOperation => 5

/-- `MemRead(addr, 1)` (R31): never wraps, no side effect. -/
def memRead (s : State) (addr : Nat) : Except Raised Byte :=
  if addr < Config.memSize then .ok (s.mem.read addr) else .error (outOfBounds addr)

/-- `MemWrite(addr, 1, v)` (R32): changes exactly one cell, never wraps. -/
def memWrite (s : State) (addr : Nat) (v : Byte) : Except Raised State :=
  if addr < Config.memSize then .ok { s with mem := s.mem.write addr v } else .error (outOfBounds addr)

/-- `raise` (R128): `s` is the state at the START of the step, so every write of the step is discarded; FAULT is
recorded with the address of the faulting instruction, RUN becomes FAULTED, and nothing else changes (R129). There is no
handler, no vector and no return (R130). -/
def takeFault (e : Raised) (s : State) : State :=
  { s with fault := some ⟨e.cause, e.info, s.pc⟩, run := .faulted }

/-- The end of an instruction that started in `s`: its writes all take effect, or it takes its one fault (R70). -/
def commit (s : State) (r : Except Raised State) : Result :=
  match r with
  | .ok t => .next t
  | .error e => .next (takeFault e s)

end Sys2Proof.Machine
end

