-- ==== Sys2Proof/Machine/Operands.lean ====
section
/-! DEFINITION. Every operand form: the register index, the immediate, and the one data addressing mode, the stack
(R13, R53, R54, R100). -/

namespace Sys2Proof.Machine

/-- `regidx(b)` (R13): the whole byte is compared, not its low bits. -/
def regidx (b : Byte) : Except Raised Reg :=
  if h : b.toNat < 8 then .ok ⟨b.toNat, h⟩ else .error (invalidRegister b)

/-- Both register operands, `opA` checked first (R13, R73). -/
def regidx2 (opA opB : Byte) : Except Raised (Reg × Reg) := do
  let a ← regidx opA
  let b ← regidx opB
  return (a, b)

/-- `zext_16(b)`: LDI's immediate, and a byte read from the stack (R5, R54, R100). -/
def zext16 (b : Byte) : Word := b.setWidth 16

/-- `v[7:0]`: the byte a push stores; bits 15:8 are dropped (R33, R100). -/
def lowByte (v : Word) : Byte := v.setWidth 8

/-- The first half of a push: `SP <- (SP - 1) mod 2^16` (R100). -/
def preDecrementSp (s : State) : State := s.setSp (s.sp - 1#16)

/-- The second half of a pop: `SP <- (SP + 1) mod 2^16`, of the SP that then is (R100, R102). -/
def postIncrementSp (s : State) : State := s.setSp (s.sp + 1#16)

/-- The cell a push writes: the decremented SP (R100). -/
def pushAddr (s : State) : Nat := (s.sp - 1#16).toNat

/-- The cell a pop reads: SP (R100). -/
def popAddr (s : State) : Nat := s.sp.toNat

/-- A push from the state `s`: SP is decremented, then the low byte of `v` is stored in the cell SP now names (R100). -/
def pushLow (s : State) (v : Word) : Except Raised State := memWrite (preDecrementSp s) (pushAddr s) (lowByte v)

/-- The read of a pop: the byte of the cell SP names (R100). -/
def readTop (s : State) : Except Raised Byte := memRead s (popAddr s)

end Sys2Proof.Machine
end

