-- ==== Sys2Proof/Machine/Alu.lean ====
section
/-! DEFINITION. The ALU (42_alu.md): exact arithmetic on the unsigned values, narrowed at the end. -/

namespace Sys2Proof.Machine

/-- `(va + vb) mod 2^16` (R86). -/
def aluAdd (va vb : Word) : Except Raised Word := .ok (BitVec.ofNat 16 (va.toNat + vb.toNat))

/-- `(va - vb) mod 2^16` of the exact, possibly negative, difference (R87). -/
def aluSub (va vb : Word) : Except Raised Word := .ok (BitVec.ofInt 16 ((va.toNat : Int) - (vb.toNat : Int)))

/-- `(va * vb) mod 2^16`: the low 16 bits of the product (R88). -/
def aluMul (va vb : Word) : Except Raised Word := .ok (BitVec.ofNat 16 (va.toNat * vb.toNat))

/-- The divisor check of DIV and MOD alike (R85, R123). -/
def checkDivisor (vb : Word) : Except Raised Unit := if vb = 0#16 then .error divisionByZero else .ok ()

/-- `va div vb`: the floor of the unsigned quotient (R89). -/
def aluDiv (va vb : Word) : Except Raised Word := do
  checkDivisor vb
  return BitVec.ofNat 16 (va.toNat / vb.toNat)

/-- `va mod vb`: the matching remainder (R90). -/
def aluMod (va vb : Word) : Except Raised Word := do
  checkDivisor vb
  return BitVec.ofNat 16 (va.toNat % vb.toNat)

/-- The common shape of the five (R85): indices checked, both sources read, then the destination and PC written. -/
def aluOp (f : Word → Word → Except Raised Word) (opA opB : Byte) (s : State) : Except Raised State := do
  let (a, b) ← regidx2 opA opB
  let v ← f (s.reg a) (s.reg b)
  return (s.setReg a v).advance 3

/-- ADD (R86). -/
def execAdd (opA opB : Byte) (s : State) : Result := commit s (aluOp aluAdd opA opB s)

/-- SUB (R87). -/
def execSub (opA opB : Byte) (s : State) : Result := commit s (aluOp aluSub opA opB s)

/-- MUL (R88). -/
def execMul (opA opB : Byte) (s : State) : Result := commit s (aluOp aluMul opA opB s)

/-- DIV (R89). -/
def execDiv (opA opB : Byte) (s : State) : Result := commit s (aluOp aluDiv opA opB s)

/-- MOD (R90). -/
def execMod (opA opB : Byte) (s : State) : Result := commit s (aluOp aluMod opA opB s)

end Sys2Proof.Machine
end

