-- ==== Sys2Proof/Machine/Flags.lean ====
section
/-! DEFINITION. The one flag computation: FL after CMP (R16, R95). No other instruction computes a flag. -/

namespace Sys2Proof.Machine

/-- 1 when the full 16-bit values are equal, else 0 (R95). -/
def equalFlag (va vb : Word) : Bool := decide (va = vb)

end Sys2Proof.Machine
end

