-- ==== Sys2Proof/Machine/Compare.lean ====
section
/-! DEFINITION. Compare (43_compare.md). -/

namespace Sys2Proof.Machine

/-- FL is always written, no register is (R95). -/
def cmpEffect (opA opB : Byte) (s : State) : Except Raised State := do
  let (a, b) ← regidx2 opA opB
  return (s.setFl (equalFlag (s.reg a) (s.reg b))).advance 3

/-- CMP (R95). -/
def execCmp (opA opB : Byte) (s : State) : Result := commit s (cmpEffect opA opB s)

end Sys2Proof.Machine
end

