-- ==== Sys2Proof/Machine/Control.lean ====
section
/-! DEFINITION. Control transfer (45_control_transfer.md). A target is never checked: the next fetch is (R110). -/

namespace Sys2Proof.Machine

/-- `PC <- x[a]` (R105). -/
def jmpEffect (opA : Byte) (s : State) : Except Raised State := do
  let a ← regidx opA
  return s.setPc (s.reg a)

/-- JMP (R105). -/
def execJmp (opA : Byte) (s : State) : Result := commit s (jmpEffect opA s)

/-- The shape of JEQ and JNE: the index is checked on both paths, before the flag; the fall-through is 2 (R106, R107). -/
def jumpIf (taken : Bool) (opA : Byte) (s : State) : Except Raised State := do
  let a ← regidx opA
  return if taken then s.setPc (s.reg a) else s.advance 2

/-- JEQ (R106). -/
def execJeq (opA : Byte) (s : State) : Result := commit s (jumpIf s.fl opA s)

/-- JNE (R107). -/
def execJne (opA : Byte) (s : State) : Result := commit s (jumpIf (!s.fl) opA s)

/-- The return address of CALL, `PC + 2` (R108). -/
def returnAddress (s : State) : Word := s.pc + 2#16

/-- The return address is pushed, and the target is read after SP is decremented (R108). -/
def callEffect (opA : Byte) (s : State) : Except Raised State := do
  let a ← regidx opA
  let t ← pushLow s (returnAddress s)
  return t.setPc (t.reg a)

/-- CALL (R108). -/
def execCall (opA : Byte) (s : State) : Result := commit s (callEffect opA s)

/-- Whatever byte is on top of the stack is the target (R109). -/
def retEffect (s : State) : Except Raised State := do
  let v ← readTop s
  return (postIncrementSp s).setPc (zext16 v)

/-- RET (R109). -/
def execRet (s : State) : Result := commit s (retEffect s)

end Sys2Proof.Machine
end

