-- ==== Sys2Proof/Machine/Engine.lean ====
section
/-! DEFINITION. HLT (40_engine_loop.md). -/

namespace Sys2Proof.Machine

/-- RUN becomes HALTED; PC keeps the address of the HLT and nothing else changes (R76). -/
def hltEffect (s : State) : Except Raised State := .ok (s.setRun .halted)

/-- HLT (R76). -/
def execHlt (s : State) : Result := commit s (hltEffect s)

end Sys2Proof.Machine
end

