-- ==== Sys2Proof/Machine/LoadOutput.lean ====
section
/-! DEFINITION. Load immediate and print (41_load_and_output.md). -/

namespace Sys2Proof.Machine

/-- `opB` is a value, never checked as an index (R80). -/
def ldiEffect (opA opB : Byte) (s : State) : Except Raised State := do
  let a ← regidx opA
  return (s.setReg a (zext16 opB)).advance 3

/-- LDI (R80). -/
def execLdi (opA opB : Byte) (s : State) : Result := commit s (ldiEffect opA opB s)

/-- The full 16-bit value is emitted (R81). -/
def prnEffect (opA : Byte) (s : State) : Except Raised State := do
  let a ← regidx opA
  return (s.emit (s.reg a)).advance 2

/-- PRN (R81). -/
def execPrn (opA : Byte) (s : State) : Result := commit s (prnEffect opA s)

end Sys2Proof.Machine
end

