-- ==== Sys2Proof/Machine/Stack.lean ====
section
/-! DEFINITION. The stack (44_stack.md). Effects stand in the written order of the rules, which is what R7 as an operand
shows (D13). -/

namespace Sys2Proof.Machine

/-- `x[a]` is read after SP is decremented (R101). -/
def pushEffect (opA : Byte) (s : State) : Except Raised State := do
  let a ← regidx opA
  let t ← pushLow s ((preDecrementSp s).reg a)
  return t.advance 2

/-- PUSH (R101). -/
def execPush (opA : Byte) (s : State) : Result := commit s (pushEffect opA s)

/-- `x[a]` is written before SP is incremented, and the increment reads the SP that then is (R102). -/
def popEffect (opA : Byte) (s : State) : Except Raised State := do
  let a ← regidx opA
  let v ← readTop s
  return (postIncrementSp (s.setReg a (zext16 v))).advance 2

/-- POP (R102). -/
def execPop (opA : Byte) (s : State) : Result := commit s (popEffect opA s)

end Sys2Proof.Machine
end

