-- ==== Sys2Proof/Syntax.lean ====
section
/-! DEFINITION. The 16 instructions (R55), with the operand bytes as fetched: a register operand is checked by
execute, not by decode (R72, R73), so it is a whole byte here. Unused operand bytes are no part of an instruction (R52). -/

namespace Sys2Proof

/-- One constructor per row of the opcode table (R55); `opA` and `opB` are the bytes at `PC + 1` and `PC + 2` (R50). -/
inductive Instr where
  /-- HLT, format F0 (R76). -/
  | hlt
  /-- LDI: destination register index, 8-bit immediate, format F2 (R80). -/
  | ldi (opA opB : Byte)
  /-- PRN: source register index, format F1 (R81). -/
  | prn (opA : Byte)
  /-- ADD: destination and first source, second source, format F2 (R86). -/
  | add (opA opB : Byte)
  /-- SUB: destination and minuend, subtrahend, format F2 (R87). -/
  | sub (opA opB : Byte)
  /-- MUL: destination and first factor, second factor, format F2 (R88). -/
  | mul (opA opB : Byte)
  /-- DIV: destination and dividend, divisor, format F2 (R89). -/
  | div (opA opB : Byte)
  /-- MOD: destination and dividend, divisor, format F2 (R90). -/
  | mod (opA opB : Byte)
  /-- CMP: the two compared registers, format F2 (R95). -/
  | cmp (opA opB : Byte)
  /-- PUSH: source register index, format F1 (R101). -/
  | push (opA : Byte)
  /-- POP: destination register index, format F1 (R102). -/
  | pop (opA : Byte)
  /-- CALL: the register that holds the target, format F1 (R108). -/
  | call (opA : Byte)
  /-- RET, format F0 (R109). -/
  | ret
  /-- JMP: the register that holds the target, format F1 (R105). -/
  | jmp (opA : Byte)
  /-- JEQ: the register that holds the target, format F1 (R106, C1). -/
  | jeq (opA : Byte)
  /-- JNE: the register that holds the target, format F1 (R107, C1). -/
  | jne (opA : Byte)
  deriving DecidableEq, Repr

end Sys2Proof
end

