-- ==== Sys2Proof/Decode.lean ====
section
/-! DEFINITION. Decode (R72, R55), total on all bytes, rejecting by name, and the encoder (R50, R55). -/

namespace Sys2Proof

/-- Why bytes are no instruction. -/
inductive DecodeError where
  /-- The opcode byte is none of the 16 (R57); in a step it is the fault UnknownInstruction(ir) (R124). Safe. -/
  | unknownInstruction (ir : Byte)
  /-- A byte list ends inside an instruction; never in a step, which reads the whole window (R52). Safe (log 9). -/
  | truncated
  deriving DecidableEq, Repr

/-- The three bytes of the fetch window to the instruction: only `ir` selects it, by whole-byte match (R55, R72);
the operand bytes are carried unchecked, and the ones the format does not use are ignored (R52). -/
def decode (ir opA opB : Byte) : Except DecodeError Instr :=
  match ir with
  | 0x01#8 => .ok .hlt
  | 0x82#8 => .ok (.ldi opA opB)
  | 0x47#8 => .ok (.prn opA)
  | 0xA0#8 => .ok (.add opA opB)
  | 0xA1#8 => .ok (.sub opA opB)
  | 0xA2#8 => .ok (.mul opA opB)
  | 0xA3#8 => .ok (.div opA opB)
  | 0xA4#8 => .ok (.mod opA opB)
  | 0xA7#8 => .ok (.cmp opA opB)
  | 0x45#8 => .ok (.push opA)
  | 0x46#8 => .ok (.pop opA)
  | 0x50#8 => .ok (.call opA)
  | 0x11#8 => .ok .ret
  | 0x54#8 => .ok (.jmp opA)
  | 0x55#8 => .ok (.jeq opA)
  | 0x56#8 => .ok (.jne opA)
  | _ => .error (.unknownInstruction ir)

/-- The 16 opcode bytes of R55; every other byte is illegal (R57). -/
def opcodes : List Byte :=
  [0x01#8, 0x82#8, 0x47#8, 0xA0#8, 0xA1#8, 0xA2#8, 0xA3#8, 0xA4#8, 0xA7#8, 0x45#8, 0x46#8, 0x50#8, 0x11#8, 0x54#8,
   0x55#8, 0x56#8]

/-- How many operand bytes an instruction has (R55, column "operands"). -/
def Instr.operands : Instr → Nat
  | .hlt | .ret => 0
  | .prn _ | .push _ | .pop _ | .call _ | .jmp _ | .jeq _ | .jne _ => 1
  | .ldi _ _ | .add _ _ | .sub _ _ | .mul _ _ | .div _ _ | .mod _ _ | .cmp _ _ => 2

/-- The length in bytes: the operand count plus one (R59). -/
def Instr.length (i : Instr) : Nat := 1 + i.operands

/-- The first instruction of a byte list and the bytes after it: `decode` of the first three bytes, kept when the
list holds the whole instruction (R50, R59). -/
def decodeBytes : List Byte → Except DecodeError (Instr × List Byte)
  | [] => .error .truncated
  | ir :: rest =>
    match decode ir (rest.getD 0 0#8) (rest.getD 1 0#8) with
    | .error e => .error e
    | .ok i => if i.operands ≤ rest.length then .ok (i, rest.drop i.operands) else .error .truncated

/-- The bytes of an instruction at ascending addresses: opcode, first operand, second operand (R33, R50, R55). -/
def encode : Instr → List Byte
  | .hlt => [0x01#8]
  | .ldi a b => [0x82#8, a, b]
  | .prn a => [0x47#8, a]
  | .add a b => [0xA0#8, a, b]
  | .sub a b => [0xA1#8, a, b]
  | .mul a b => [0xA2#8, a, b]
  | .div a b => [0xA3#8, a, b]
  | .mod a b => [0xA4#8, a, b]
  | .cmp a b => [0xA7#8, a, b]
  | .push a => [0x45#8, a]
  | .pop a => [0x46#8, a]
  | .call a => [0x50#8, a]
  | .ret => [0x11#8]
  | .jmp a => [0x54#8, a]
  | .jeq a => [0x55#8, a]
  | .jne a => [0x56#8, a]

/-- Byte `k` of an instruction given as one number, first byte least significant; bits from `nbits` up are 0. -/
def tableByte (nbits w k : Nat) : Byte := BitVec.ofNat 8 (w % 2 ^ nbits / 2 ^ (8 * k))

/-- The instruction the decoder reads from the table's word `w` of `nbits` bits, the bits above them 0. -/
def decodeTableWord (nbits w : Nat) : Option Instr :=
  match decode (tableByte nbits w 0) (tableByte nbits w 1) (tableByte nbits w 2) with
  | .ok i => some i
  | .error _ => none

end Sys2Proof
end

