-- ==== Sys2Proof/Machine/Fetch.lean ====
section
/-! DEFINITION. Fetch and decode of one step (R71, R72), and when there is a step at all (R70, R75). -/

namespace Sys2Proof.Machine

/-- `fetch()` (R71): all three bytes, in this order, whatever the instruction's length; the sums are exact. -/
def fetch (s : State) : Except Raised (Byte × Byte × Byte) := do
  let ir ← memRead s s.pc.toNat
  let opA ← memRead s (s.pc.toNat + 1)
  let opB ← memRead s (s.pc.toNat + 2)
  return (ir, opA, opB)

/-- The decoder's answer as a step takes it: an unknown opcode byte is the fault UnknownInstruction(ir) (R72, R124). -/
def decodeWindow (ir opA opB : Byte) : Except Raised Instr :=
  match decode ir opA opB with
  | .ok i => .ok i
  | .error _ => .error (unknownInstruction ir)

/-- Fetch, then decode (R70). -/
def fetchInstr (s : State) : Except Raised Instr := do
  let (ir, opA, opB) ← fetch s
  decodeWindow ir opA opB

/-- Why there is no step: a step is defined only while RUN is RUNNING (R70, R75, log 1). -/
def noStep : RunState → Option Fault
  | .running => none
  | .halted => some .engineHalted
  | .faulted => some .engineFaulted

end Sys2Proof.Machine
end

