-- ==== Sys2Proof/Machine/Step.lean ====
section
/-! DEFINITION. One fetch-decode-execute iteration (R70), and placing an instruction where it fetches. -/

namespace Sys2Proof.Machine

/-- `step` (R70): fetch, decode, execute, or the one fault met first (R127). -/
def step (s : State) : Host.Outcome State Fault Refusal :=
  match noStep s.run with
  | some r => .fault r
  | none =>
    match fetchInstr s with
    | .error e => .next (takeFault e s)
    | .ok i => exec i s

/-- The state with the table's word in the fetch window: its three bytes at PC, PC + 1 and PC + 2, as a load would put
them (R71, R142, log 8). A byte whose address would be above 255 is nowhere (R30). -/
def State.withFetchWord (s : State) (nbits w : Nat) : State :=
  { s with mem :=
      (s.mem.writeBytes s.pc.toNat
        ([tableByte nbits w 0, tableByte nbits w 1, tableByte nbits w 2].take (Config.memSize - s.pc.toNat))) }

end Sys2Proof.Machine
end

