-- ==== Sys2Proof/Machine/Boot.lean ====
section
/-! DEFINITION. The host interface (70_reset_and_hazards.md): reset, load and observe. None of them is part of a step. -/

namespace Sys2Proof.Machine

/-- Reset, allowed at any time: a full construction, memory included (R140, D19). -/
def hostReset (_ : State) : State := State.reset

/-- Reset, then load `b[0..n-1]` from address 0 (R141, R142). More than 256 bytes is no launch (log 8). -/
def boot (bs : List Byte) : Option State :=
  if bs.length ≤ Config.memSize then some { State.reset with mem := State.reset.mem.writeBytes 0 bs } else none

/-- How the host renders OUT: each value's unsigned decimal numeral, then a line break (R19, R81). DESIGN CHOICE, unsafe: the
spec does not say which characters the line break is (N17), and the model writes one line feed (log 14). -/
def renderOut (out : List Word) : String := String.join (out.map fun v => toString v.toNat ++ "\n")

/-- A cell as the host observes it, `none` outside memory (R144, log 10). -/
def observeCell (s : State) (a : Nat) : Option Byte := if a < Config.memSize then some (s.mem.read a) else none

/-- The optional trace view: PC, the next three cells, the eight registers (R135). It changes nothing. -/
def traceView (s : State) : Word × List (Option Byte) × Vector Word 8 :=
  (s.pc, [0, 1, 2].map fun k => observeCell s (s.pc.toNat + k), s.regs)

end Sys2Proof.Machine
end

