-- ==== Sys2Proof/WellFormed.lean ====
section
/-! DEFINITION. Which instructions name legal operands (R50: a register index byte has the legal values 0 to 7).
An ill-formed instruction still decodes and runs: execute raises InvalidRegister (R13, R122). -/

namespace Sys2Proof

/-- A legal register-index byte: the whole byte, not its low bits, is compared (R13, R53). -/
def legalIndex (b : Byte) : Bool := decide (b.toNat < 8)

/-- The operand bytes used as register indices, in the order they are checked; LDI's `opB` is a value (R13, R73). -/
def Instr.regOperands : Instr → List Byte
  | .hlt | .ret => []
  | .ldi a _ => [a]
  | .prn a | .push a | .pop a | .call a | .jmp a | .jeq a | .jne a => [a]
  | .add a b | .sub a b | .mul a b | .div a b | .mod a b | .cmp a b => [a, b]

/-- Every register-index operand is legal (R50). -/
def Instr.wf (i : Instr) : Bool := i.regOperands.all legalIndex

end Sys2Proof
end

