-- ==== Sys2Proof/Safety.lean ====
section
/-! DEFINITION. The terms the claims use: the invariant, frames, the faulted state, runs, and the spec's fault order. -/

namespace Sys2Proof.Machine

/-- The operand byte that names register `r`. -/
def regByte (r : Reg) : Byte := BitVec.ofNat 8 r.val

/-- The state R128 says a fault of the given cause and info leaves. -/
def faultedAt (s : State) (cause : FaultCause) (info : Option Nat) : State :=
  { s with fault := some ⟨cause, info, s.pc⟩, run := .faulted }

/-- Every register not in `rs` is unchanged. -/
def SameRegsBut (s t : State) (rs : List Reg) : Prop := ∀ r, r ∉ rs → t.reg r = s.reg r

/-- Every byte of memory outside `as` reads as before. -/
def SameMemBut (s t : State) (as : List Nat) : Prop := ∀ a, a ∉ as → memRead t a = memRead s a

/-- The run state and the fault record are unchanged. -/
def SameControl (s t : State) : Prop := t.run = s.run ∧ t.fault = s.fault

/-- Nothing but the registers in `rs` and PC has changed. -/
def OnlyRegsAndPc (s t : State) (rs : List Reg) : Prop :=
  SameRegsBut s t rs ∧ SameMemBut s t [] ∧ SameControl s t ∧ t.fl = s.fl ∧ t.out = s.out

/-- Nothing but the registers in `rs`, the bytes in `as` and PC has changed. -/
def OnlyRegsMemAndPc (s t : State) (rs : List Reg) (as : List Nat) : Prop :=
  SameRegsBut s t rs ∧ SameMemBut s t as ∧ SameControl s t ∧ t.fl = s.fl ∧ t.out = s.out

/-- A register operand above 7 makes the one-operand form fault, with the whole byte as info and nothing written (R13). -/
def BadIndexFaults (mk : Byte → Instr) : Prop :=
  ∀ opA s, 8 ≤ opA.toNat → exec (mk opA) s = .next (faultedAt s .invalidRegister (some opA.toNat))

/-- The same for two register operands: `opA` is checked first and hides a bad `opB` (R13). -/
def BadIndicesFault (mk : Byte → Byte → Instr) : Prop :=
  ∀ opA opB s,
    (8 ≤ opA.toNat → exec (mk opA opB) s = .next (faultedAt s .invalidRegister (some opA.toNat))) ∧
    (opA.toNat < 8 → 8 ≤ opB.toNat → exec (mk opA opB) s = .next (faultedAt s .invalidRegister (some opB.toNat)))

/-- A fault record as R120 allows it: what `info` holds for each cause, and that nothing raises UnsupportedOperation. -/
def FaultRecord.ok (f : FaultRecord) : Prop :=
  match f.cause, f.info with
  | .outOfBounds, some a => 256 ≤ a ∧ a ≤ 65535
  | .invalidRegister, some b => 8 ≤ b ∧ b ≤ 255
  | .divisionByZero, none => True
  | .unknownInstruction, some b => b ≤ 255 ∧ BitVec.ofNat 8 b ∉ opcodes
  | _, _ => False

/-- The invariant of the machine: memory is canonical, FAULT is set exactly in FAULTED (R18), and a set record is one
R120 allows, charged to the instruction PC still names (R128). -/
structure State.Inv (s : State) : Prop where
  mem_wf : s.mem.wf = true
  fault_iff : s.fault.isSome = true ↔ s.run = .faulted
  fault_ok : ∀ f, s.fault = some f → f.ok ∧ f.pc = s.pc

/-- `t` is reached from `s` in `n` steps, with no host move between them (R74, log 11). -/
def stepsTo : Nat → State → State → Prop
  | 0, s, t => t = s
  | n + 1, s, t => ∃ u, step s = .next u ∧ stepsTo n u t

/-- `t` is reached from `s` in `n` steps none of which executes CMP, with no host move between them (R96, log 11). -/
def stepsWithoutCmp : Nat → State → State → Prop
  | 0, s, t => t = s
  | n + 1, s, t => (∀ a b, fetchInstr s ≠ .ok (.cmp a b)) ∧ ∃ u, step s = .next u ∧ stepsWithoutCmp n u t

/-- The divisor register of DIV and MOD holds 0 (level 7 of R127); `opB` is a legal index. -/
def zeroDivisor (i : Instr) (s : State) : Bool :=
  match i with
  | .div _ b | .mod _ b => decide (s.reg (Fin.ofNat 8 b.toNat) = 0#16)
  | _ => false

/-- The address of the stack access, where the instruction makes one (level 8 of R127, R137). -/
def stackAddr (i : Instr) (s : State) : Option Nat :=
  match i with
  | .push _ | .call _ => some ((s.sp.toNat + 65535) % 65536)
  | .pop _ | .ret => some s.sp.toNat
  | _ => none

/-- The first fault inside execute, levels 5 to 8 of R127. -/
def executeFault (i : Instr) (s : State) : Option (FaultCause × Option Nat) :=
  match i.regOperands.find? fun b => !legalIndex b with
  | some b => some (.invalidRegister, some b.toNat)
  | none =>
    if zeroDivisor i s then some (.divisionByZero, none)
    else match stackAddr i s with
      | some a => if 255 < a then some (.outOfBounds, some a) else none
      | none => none

/-- The first fault of a step in the order of R127, or none; levels 1 to 4 here. -/
def firstFault (s : State) : Option (FaultCause × Option Nat) :=
  let pc := s.pc.toNat
  if 255 < pc then some (.outOfBounds, some pc)
  else if 255 < pc + 1 then some (.outOfBounds, some (pc + 1))
  else if 255 < pc + 2 then some (.outOfBounds, some (pc + 2))
  else match decode (s.mem.read pc) (s.mem.read (pc + 1)) (s.mem.read (pc + 2)) with
    | .error _ => some (.unknownInstruction, some (s.mem.read pc).toNat)
    | .ok i => executeFault i s

end Sys2Proof.Machine
end

