-- ==== Sys2Proof/Certificates/Slice0/Obligations.lean ====
section
/-! DEFINITION. The statements for the provers, from the numbered rules of spec/. D1 to D27 are the spec's own decisions
(92_eei_decisions.md; logs 2 to 6). `regByte r` is the operand byte that names
register `r`; `faultedAt s c i` is the state R128 says a fault leaves. OBLIGATIONS.json says what each rests on. -/

open Sys2Proof Sys2Proof.Machine

/-! ## Encoding -/

/-- R50, R59 (opcode bytes: D1): decode and encode agree. Bytes decode to `i` with `rest` left over exactly when they are the
encoding of `i` followed by `rest`: no bit of an encoding is dropped, and no other bytes mean `i`. -/
def Obligations.DecodeAndEncodeAgree : Prop :=
  ∀ (bs : List Byte) (i : Instr) (rest : List Byte), decodeBytes bs = .ok (i, rest) ↔ bs = encode i ++ rest

/-- R72 (opcode bytes: D1): decode looks only at the opcode byte and is total: 16 bytes give their instruction, the other 240 are rejected by
name, which ends a running machine's step in UnknownInstruction with the byte and PC. -/
def Obligations.DecodeIsTotalOnTheOpcodeByte : Prop :=
  (∀ ir opA opB : Byte,
    ir ∈ [0x01#8, 0x82#8, 0x47#8, 0xA0#8, 0xA1#8, 0xA2#8, 0xA3#8, 0xA4#8, 0xA7#8, 0x45#8, 0x46#8, 0x50#8, 0x11#8, 0x54#8,
      0x55#8, 0x56#8] →
    ∃ i, decode ir opA opB = .ok i ∧ (encode i).head? = some ir) ∧
  (∀ ir opA opB : Byte,
    ir ∉ [0x01#8, 0x82#8, 0x47#8, 0xA0#8, 0xA1#8, 0xA2#8, 0xA3#8, 0xA4#8, 0xA7#8, 0x45#8, 0x46#8, 0x50#8, 0x11#8, 0x54#8,
      0x55#8, 0x56#8] →
    decode ir opA opB = .error (.unknownInstruction ir) ∧
    ∀ s : State, s.run = .running → memRead s s.pc.toNat = .ok ir → memRead s (s.pc.toNat + 1) = .ok opA →
      memRead s (s.pc.toNat + 2) = .ok opB → step s = .next (faultedAt s .unknownInstruction (some ir.toNat))) ∧
  ((List.range 256).filter fun n => (decode (BitVec.ofNat 8 n) 0#8 0#8).toOption.isNone).length = 240

/-- R55 (opcode bytes: D1): words written out from the table decode to what they stand for, opcode byte lowest. -/
def Obligations.TableWordsDecode : Prop :=
  decodeTableWord 8 0x01 = some .hlt ∧ decodeTableWord 24 0x080382 = some (.ldi 3#8 8#8) ∧
  decodeTableWord 16 0x0247 = some (.prn 2#8) ∧ decodeTableWord 24 0x0100A0 = some (.add 0#8 1#8) ∧
  decodeTableWord 24 0x0302A7 = some (.cmp 2#8 3#8) ∧ decodeTableWord 16 0x0745 = some (.push 7#8) ∧
  decodeTableWord 16 0x0150 = some (.call 1#8) ∧ decodeTableWord 16 0x0456 = some (.jne 4#8) ∧
  decodeTableWord 8 0x00 = none

/-- R52 (D18): the window's bytes after the instruction's own are ignored: any memory that agrees on the instruction's bytes
gives the same instruction. -/
def Obligations.UnusedWindowBytesAreIgnored : Prop :=
  ∀ (s : State) (m : Memory) (i : Instr), fetchInstr s = .ok i →
    (∀ k, k < i.length → Memory.read m (s.pc.toNat + k) = Memory.read s.mem (s.pc.toNat + k)) →
    fetchInstr { s with mem := m } = .ok i

/-! ## One statement per instruction: decoding, completion with result and frame, faults -/

/-- R76 (opcode byte: D1; PC unchanged: D12): HLT sets RUN to HALTED and changes nothing else. -/
def Obligations.HltHaltsAndKeepsEverything : Prop :=
  (∀ opA opB, decode 0x01#8 opA opB = .ok .hlt) ∧
  ∀ s : State, ∃ t, exec .hlt s = .next t ∧ t.run = .halted ∧ t.pc = s.pc ∧ t.fault = s.fault ∧ t.fl = s.fl ∧
    t.out = s.out ∧ SameRegsBut s t [] ∧ SameMemBut s t []

/-- R80 (opcode byte: D1; zero-extension: D17; opB unchecked: D18; R7 allowed: D13): LDI writes the immediate, whatever its value. -/
def Obligations.LdiLoadsZeroExtendedImmediate : Prop :=
  (∀ opA opB, decode 0x82#8 opA opB = .ok (.ldi opA opB)) ∧
  (∀ (a : Reg) (imm : Byte) (s : State), ∃ t, exec (.ldi (regByte a) imm) s = .next t ∧
    (t.reg a).toNat = imm.toNat ∧ t.pc = s.pc + 3#16 ∧ OnlyRegsAndPc s t [a]) ∧
  ∀ imm, BadIndexFaults (.ldi · imm)

/-- R81 (opcode byte: D1; the emitted value is the unsigned one: D3, D14): PRN appends the whole register to OUT. -/
def Obligations.PrnAppendsRegisterToOutput : Prop :=
  (∀ opA opB, decode 0x47#8 opA opB = .ok (.prn opA)) ∧
  (∀ (a : Reg) (s : State), ∃ t, exec (.prn (regByte a)) s = .next t ∧ t.out = s.out ++ [s.reg a] ∧
    t.pc = s.pc + 2#16 ∧ SameRegsBut s t [] ∧ SameMemBut s t [] ∧ SameControl s t ∧ t.fl = s.fl) ∧
  BadIndexFaults .prn

/-- R86 (opcode byte: D1; width and wrap: D2, D3; check order: D10): ADD. -/
def Obligations.AddWritesSumModulo65536 : Prop :=
  (∀ opA opB, decode 0xA0#8 opA opB = .ok (.add opA opB)) ∧
  (∀ (a b : Reg) (s : State), ∃ t, exec (.add (regByte a) (regByte b)) s = .next t ∧
    (t.reg a).toNat = ((s.reg a).toNat + (s.reg b).toNat) % 65536 ∧ t.pc = s.pc + 3#16 ∧ OnlyRegsAndPc s t [a]) ∧
  BadIndicesFault .add

/-- R87 (opcode byte: D1; width and wrap: D2, D3; check order: D10): SUB, in the rule's two cases. -/
def Obligations.SubWritesDifferenceModulo65536 : Prop :=
  (∀ opA opB, decode 0xA1#8 opA opB = .ok (.sub opA opB)) ∧
  (∀ (a b : Reg) (s : State), ∃ t, exec (.sub (regByte a) (regByte b)) s = .next t ∧
    (t.reg a).toNat = (if (s.reg b).toNat ≤ (s.reg a).toNat then (s.reg a).toNat - (s.reg b).toNat
      else (s.reg a).toNat + 65536 - (s.reg b).toNat) ∧ t.pc = s.pc + 3#16 ∧ OnlyRegsAndPc s t [a]) ∧
  BadIndicesFault .sub

/-- R88 (opcode byte: D1; width and wrap: D2, D3; check order: D10): MUL keeps the low 16 bits of the product. -/
def Obligations.MulWritesLowHalfOfProduct : Prop :=
  (∀ opA opB, decode 0xA2#8 opA opB = .ok (.mul opA opB)) ∧
  (∀ (a b : Reg) (s : State), ∃ t, exec (.mul (regByte a) (regByte b)) s = .next t ∧
    (t.reg a).toNat = ((s.reg a).toNat * (s.reg b).toNat) % 65536 ∧ t.pc = s.pc + 3#16 ∧ OnlyRegsAndPc s t [a]) ∧
  BadIndicesFault .mul

/-- R89 (opcode byte: D1; unsigned floor: D4; check order: D10): DIV writes the quotient, and a zero divisor is the fault. -/
def Obligations.DivWritesQuotientOrFaults : Prop :=
  (∀ opA opB, decode 0xA3#8 opA opB = .ok (.div opA opB)) ∧
  (∀ (a b : Reg) (s : State), s.reg b ≠ 0#16 → ∃ t, exec (.div (regByte a) (regByte b)) s = .next t ∧
    (t.reg a).toNat = (s.reg a).toNat / (s.reg b).toNat ∧ t.pc = s.pc + 3#16 ∧ OnlyRegsAndPc s t [a]) ∧
  (∀ (a b : Reg) (s : State), s.reg b = 0#16 →
    exec (.div (regByte a) (regByte b)) s = .next (faultedAt s .divisionByZero none)) ∧
  BadIndicesFault .div

/-- R90 (opcode byte: D1; matching remainder: D4; check order: D10): MOD writes the remainder, and a zero divisor is the fault. -/
def Obligations.ModWritesRemainderOrFaults : Prop :=
  (∀ opA opB, decode 0xA4#8 opA opB = .ok (.mod opA opB)) ∧
  (∀ (a b : Reg) (s : State), s.reg b ≠ 0#16 → ∃ t, exec (.mod (regByte a) (regByte b)) s = .next t ∧
    (t.reg a).toNat = (s.reg a).toNat % (s.reg b).toNat ∧ t.pc = s.pc + 3#16 ∧ OnlyRegsAndPc s t [a]) ∧
  (∀ (a b : Reg) (s : State), s.reg b = 0#16 →
    exec (.mod (regByte a) (regByte b)) s = .next (faultedAt s .divisionByZero none)) ∧
  BadIndicesFault .mod

/-- R95 (opcode byte: D1): CMP writes FL, 1 exactly when the full values are equal, and no register; its faults keep FL. -/
def Obligations.CmpSetsFlagToEquality : Prop :=
  (∀ opA opB, decode 0xA7#8 opA opB = .ok (.cmp opA opB)) ∧
  (∀ (a b : Reg) (s : State), ∃ t, exec (.cmp (regByte a) (regByte b)) s = .next t ∧
    (t.fl = true ↔ (s.reg a).toNat = (s.reg b).toNat) ∧ t.pc = s.pc + 3#16 ∧ SameRegsBut s t [] ∧ SameMemBut s t [] ∧
    SameControl s t ∧ t.out = s.out) ∧
  BadIndicesFault .cmp

/-- R101 (opcode byte: D1; low byte: D7; PUSH R7 stores the decremented SP: D13): PUSH stores at the decremented SP, or faults with nothing
kept. -/
def Obligations.PushStoresLowByteBelowStackPointer : Prop :=
  (∀ opA opB, decode 0x45#8 opA opB = .ok (.push opA)) ∧
  (∀ s : State, pushAddr s = (s.sp.toNat + 65535) % 65536) ∧
  (∀ (a : Reg) (s : State), pushAddr s < 256 → ∃ t, exec (.push (regByte a)) s = .next t ∧
    t.sp = s.sp - 1#16 ∧ t.pc = s.pc + 2#16 ∧ OnlyRegsMemAndPc s t [7] [pushAddr s] ∧
    (s.mem.wf = true → ∃ v, memRead t (pushAddr s) = .ok v ∧
      v.toNat = (if a = 7 then pushAddr s else (s.reg a).toNat) % 256)) ∧
  (∀ (a : Reg) (s : State), 255 < pushAddr s →
    exec (.push (regByte a)) s = .next (faultedAt s .outOfBounds (some (pushAddr s)))) ∧
  BadIndexFaults .push

/-- R102 (opcode byte: D1; zero-extension: D7; POP R7 increments what it popped: D13): POP reads at SP, or faults with nothing kept. -/
def Obligations.PopLoadsByteAtStackPointer : Prop :=
  (∀ opA opB, decode 0x46#8 opA opB = .ok (.pop opA)) ∧
  (∀ s : State, popAddr s = s.sp.toNat) ∧
  (∀ (a : Reg) (s : State), popAddr s < 256 → ∃ t v, exec (.pop (regByte a)) s = .next t ∧
    memRead s (popAddr s) = .ok v ∧
    (a ≠ 7 → (t.reg a).toNat = v.toNat ∧ t.sp = s.sp + 1#16) ∧ (a = 7 → t.sp.toNat = v.toNat + 1) ∧
    t.pc = s.pc + 2#16 ∧ OnlyRegsAndPc s t [a, 7]) ∧
  (∀ (a : Reg) (s : State), 255 < popAddr s →
    exec (.pop (regByte a)) s = .next (faultedAt s .outOfBounds (some (popAddr s)))) ∧
  BadIndexFaults .pop

/-- R108 (opcode byte: D1; CALL R7 jumps to the decremented SP: D13): CALL pushes the return address and jumps, or faults with nothing
kept. -/
def Obligations.CallPushesReturnAddressAndJumps : Prop :=
  (∀ opA opB, decode 0x50#8 opA opB = .ok (.call opA)) ∧
  (∀ (a : Reg) (s : State), pushAddr s < 256 → ∃ t, exec (.call (regByte a)) s = .next t ∧
    t.pc = (if a = 7 then s.sp - 1#16 else s.reg a) ∧ t.sp = s.sp - 1#16 ∧ OnlyRegsMemAndPc s t [7] [pushAddr s] ∧
    (s.mem.wf = true → ∃ v, memRead t (pushAddr s) = .ok v ∧ v.toNat = (s.pc.toNat + 2) % 256)) ∧
  (∀ (a : Reg) (s : State), 255 < pushAddr s →
    exec (.call (regByte a)) s = .next (faultedAt s .outOfBounds (some (pushAddr s)))) ∧
  BadIndexFaults .call

/-- R109 (opcode byte: D1): RET takes the byte on top of the stack as its target, or faults with nothing kept. -/
def Obligations.RetPopsTargetIntoPc : Prop :=
  (∀ opA opB, decode 0x11#8 opA opB = .ok .ret) ∧
  (∀ s : State, popAddr s < 256 → ∃ t v, exec .ret s = .next t ∧ memRead s (popAddr s) = .ok v ∧
    t.pc.toNat = v.toNat ∧ t.sp = s.sp + 1#16 ∧ OnlyRegsAndPc s t [7]) ∧
  (∀ s : State, 255 < popAddr s → exec .ret s = .next (faultedAt s .outOfBounds (some (popAddr s))))

/-- R105 (opcode byte: D1): JMP copies the register, any value, to PC. -/
def Obligations.JmpCopiesRegisterToPc : Prop :=
  (∀ opA opB, decode 0x54#8 opA opB = .ok (.jmp opA)) ∧
  (∀ (a : Reg) (s : State), ∃ t, exec (.jmp (regByte a)) s = .next t ∧ t.pc = s.reg a ∧ OnlyRegsAndPc s t []) ∧
  BadIndexFaults .jmp

/-- R106 (opcode byte: D1; fall-through 2: D6, C1; index checked on both paths: D27): JEQ. -/
def Obligations.JeqJumpsWhenFlagIsSet : Prop :=
  (∀ opA opB, decode 0x55#8 opA opB = .ok (.jeq opA)) ∧
  (∀ (a : Reg) (s : State), ∃ t, exec (.jeq (regByte a)) s = .next t ∧
    t.pc = (if s.fl = true then s.reg a else s.pc + 2#16) ∧ OnlyRegsAndPc s t []) ∧
  BadIndexFaults .jeq

/-- R107 (opcode byte: D1; fall-through 2: D6, C1; index checked on both paths: D27): JNE. -/
def Obligations.JneJumpsWhenFlagIsClear : Prop :=
  (∀ opA opB, decode 0x56#8 opA opB = .ok (.jne opA)) ∧
  (∀ (a : Reg) (s : State), ∃ t, exec (.jne (regByte a)) s = .next t ∧
    t.pc = (if s.fl = false then s.reg a else s.pc + 2#16) ∧ OnlyRegsAndPc s t []) ∧
  BadIndexFaults .jne

/-! ## The step -/

/-- R70, R73: while RUNNING, when the three bytes at PC are in memory and decode to `i`, a step is exactly `exec i`. -/
def Obligations.StepRunsTheDecodedInstruction : Prop :=
  ∀ (s : State) (ir opA opB : Byte) (i : Instr), s.run = .running →
    memRead s s.pc.toNat = .ok ir → memRead s (s.pc.toNat + 1) = .ok opA → memRead s (s.pc.toNat + 2) = .ok opB →
    decode ir opA opB = .ok i → step s = exec i s

/-- R71 (lowest address reported: D23): a window that leaves memory is OutOfBounds whatever the bytes are; the address is PC
from 256 up, and 256 from PC = 254 or 255. -/
def Obligations.FetchPastMemoryFaults : Prop :=
  ∀ s : State, s.run = .running →
    (256 ≤ s.pc.toNat → step s = .next (faultedAt s .outOfBounds (some s.pc.toNat))) ∧
    (s.pc.toNat = 254 ∨ s.pc.toNat = 255 → step s = .next (faultedAt s .outOfBounds (some 256)))

/-- R127, R137 (order inside execute: D10; fetch order: D23): a running machine's step raises exactly the first fault of the
eight-level order, and where there is none it completes without one. -/
def Obligations.StepRaisesTheFirstFaultInOrder : Prop :=
  ∀ s : State, s.run = .running →
    match firstFault s with
    | some (cause, info) => step s = .next (faultedAt s cause info)
    | none => ∃ t, step s = .next t ∧ t.fault = s.fault ∧ t.run ≠ .faulted

/-- R70: a running machine always has a step, and no step is refused. -/
def Obligations.RunningMachineAlwaysSteps : Prop :=
  (∀ s : State, s.run = .running → ∃ t, step s = .next t) ∧ ∀ (s : State) (r : Refusal), step s ≠ .refused r

/-- R75 (D24; the shape of the answer is the model's: log 1): in HALTED and FAULTED there is no step, and only there. -/
def Obligations.TerminalStatesHaveNoStep : Prop :=
  ∀ s : State, (s.run = .halted ↔ step s = .fault .engineHalted) ∧ (s.run = .faulted ↔ step s = .fault .engineFaulted)

/-- R15 (D5, D12): how a step that does not fault leaves PC, instruction by instruction; sequential advances never wrap. -/
def Obligations.PcPolicyOfACompletedStep : Prop :=
  ∀ (s t : State) (i : Instr), fetchInstr s = .ok i → step s = .next t → t.run ≠ .faulted →
    match i with
    | .hlt => t.pc = s.pc
    | .jmp opA => ∃ r, opA = regByte r ∧ t.pc = s.reg r
    | .jeq opA => ∃ r, opA = regByte r ∧ if s.fl = true then t.pc = s.reg r else t.pc.toNat = s.pc.toNat + 2
    | .jne opA => ∃ r, opA = regByte r ∧ if s.fl = false then t.pc = s.reg r else t.pc.toNat = s.pc.toNat + 2
    | .call opA => ∃ r, opA = regByte r ∧ t.pc = if r = 7 then s.sp - 1#16 else s.reg r
    | .ret => t.pc.toNat ≤ 255
    | .prn _ | .push _ | .pop _ => t.pc.toNat = s.pc.toNat + 2
    | .ldi _ _ | .add _ _ | .sub _ _ | .mul _ _ | .div _ _ | .mod _ _ | .cmp _ _ => t.pc.toNat = s.pc.toNat + 3

/-- R42: a PUSH onto the opcode byte of the next instruction is what the very next fetch reads. -/
def Obligations.NextFetchSeesThePushedByte : Prop :=
  ∀ (s : State) (a : Reg), s.run = .running → s.mem.wf = true → fetchInstr s = .ok (.push (regByte a)) →
    s.pc.toNat ≤ 251 → pushAddr s = s.pc.toNat + 2 →
    ∃ t ir opA opB, step s = .next t ∧ t.pc.toNat = s.pc.toNat + 2 ∧ fetch t = .ok (ir, opA, opB) ∧
      ir.toNat = (if a = 7 then pushAddr s else (s.reg a).toNat) % 256 ∧
      memRead s (s.pc.toNat + 3) = .ok opA ∧ memRead s (s.pc.toNat + 4) = .ok opB

/-- The model's own interface (log 8): an instruction placed in the fetch window is the one the next step runs, and nothing
but memory is touched to place it. -/
def Obligations.PlacedInstructionRunsNext : Prop :=
  ∀ (s : State) (nbits w : Nat) (i : Instr), s.run = .running → s.pc.toNat ≤ 253 → s.mem.wf = true →
    decodeTableWord nbits w = some i →
    step (s.withFetchWord nbits w) = exec i (s.withFetchWord nbits w) ∧ { s.withFetchWord nbits w with mem := s.mem } = s

/-! ## Faults -/

/-- R128, R129 (that EVERY fault is precise: the spec's own decision D8, log 5): a step that ends in FAULTED leaves everything
as at its start, except RUN and FAULT, and FAULT names PC. -/
def Obligations.FaultLeavesEverythingButRunAndFault : Prop :=
  ∀ s t : State, step s = .next t → t.run = .faulted →
    ∃ cause info, t = { s with run := .faulted, fault := some ⟨cause, info, s.pc⟩ }

/-- R122 (the order of two: D10): the first illegal register-index byte faults with that byte, before anything else is read or written; an
instruction whose index bytes are legal never raises InvalidRegister. -/
def Obligations.IllegalRegisterIndexFaults : Prop :=
  (∀ (i : Instr) (s : State) (b : Byte), (i.regOperands.find? fun x => decide (7 < x.toNat)) = some b →
    exec i s = .next (faultedAt s .invalidRegister (some b.toNat))) ∧
  (∀ (i : Instr) (s t : State) (f : FaultRecord), (∀ b ∈ i.regOperands, b.toNat ≤ 7) → s.fault = none →
    exec i s = .next t → t.fault = some f → f.cause ≠ .invalidRegister)

/-- R123: DIV and MOD with legal indices and a zero divisor fault, the destination not written, and no other instruction
and no other operands raise DivisionByZero. -/
def Obligations.ZeroDivisorFaults : Prop :=
  (∀ (a b : Reg) (s : State), s.reg b = 0#16 →
    exec (.div (regByte a) (regByte b)) s = .next (faultedAt s .divisionByZero none) ∧
    exec (.mod (regByte a) (regByte b)) s = .next (faultedAt s .divisionByZero none)) ∧
  (∀ (i : Instr) (s t : State) (f : FaultRecord), s.fault = none → exec i s = .next t → t.fault = some f →
    f.cause = .divisionByZero →
    f.info = none ∧ ∃ a b : Reg, (i = .div (regByte a) (regByte b) ∨ i = .mod (regByte a) (regByte b)) ∧ s.reg b = 0#16)

/-- R124 (opcode bytes: D1): a fetched byte that is no opcode faults with that byte, and UnknownInstruction is raised only then, with the whole
window in bounds. -/
def Obligations.UnknownOpcodeFaults : Prop :=
  (∀ (s : State) (ir : Byte), s.run = .running → s.pc.toNat ≤ 253 → memRead s s.pc.toNat = .ok ir → ir ∉ opcodes →
    step s = .next (faultedAt s .unknownInstruction (some ir.toNat))) ∧
  (∀ (s t : State) (f : FaultRecord), s.fault = none → step s = .next t → t.fault = some f →
    f.cause = .unknownInstruction →
    s.pc.toNat ≤ 253 ∧ ∃ ir, memRead s s.pc.toNat = .ok ir ∧ ir ∉ opcodes ∧ f.info = some ir.toNat)

/-- R125 (the code: D9): UnsupportedOperation has its code, and no step raises it. -/
def Obligations.UnsupportedOperationIsUnreachable : Prop :=
  FaultCause.code .unsupportedOperation = 5 ∧
  ∀ (s t : State) (f : FaultRecord), s.fault = none → step s = .next t → t.fault = some f → f.cause ≠ .unsupportedOperation

/-- R130: nothing executes in FAULTED, a step that changes FAULT ends in FAULTED, and reset is the way out and clears FAULT. -/
def Obligations.FaultIsLeftOnlyByReset : Prop :=
  (∀ s : State, s.run = .faulted → ∀ t, step s ≠ .next t) ∧
  (∀ s t : State, step s = .next t → t.fault ≠ s.fault → t.run = .faulted) ∧
  (∀ s : State, (hostReset s).run = .running ∧ (hostReset s).fault = none)

/-- R17, R76 (PC: D12): HALTED is entered only by HLT, which changes RUN and nothing else. -/
def Obligations.HaltedIsEnteredOnlyByHlt : Prop :=
  ∀ s t : State, step s = .next t → t.run = .halted → fetchInstr s = .ok .hlt ∧ t = { s with run := .halted }

/-! ## Whole-machine rules -/

/-- R16: FL is written only by CMP, and only JEQ and JNE read it: any other instruction does the same whatever FL held,
and what CMP writes to it does not depend on it. -/
def Obligations.FlagIsWrittenByCmpAndReadByJumps : Prop :=
  (∀ s t : State, step s = .next t → t.fl ≠ s.fl → ∃ opA opB, fetchInstr s = .ok (.cmp opA opB)) ∧
  (∀ (i : Instr) (s t : State) (v : Bool), (∀ opA, i ≠ .jeq opA) → (∀ opA, i ≠ .jne opA) → exec i s = .next t →
    ∃ u, exec i { s with fl := v } = .next u ∧ { u with fl := t.fl } = t) ∧
  (∀ (a b : Reg) (s : State) (v : Bool),
    exec (.cmp (regByte a) (regByte b)) { s with fl := v } = exec (.cmp (regByte a) (regByte b)) s)

/-- R96 (FL at reset: D11, log 2; no host move between the steps: log 11): however many steps without a CMP follow it, JEQ and JNE see the comparison; before any CMP they
see FL = 0. -/
def Obligations.JumpsSeeTheLastComparison : Prop :=
  (∀ (n : Nat) (a b c : Reg) (s t u : State), exec (.cmp (regByte a) (regByte b)) s = .next t → stepsWithoutCmp n t u →
    (∃ v, exec (.jeq (regByte c)) u = .next v ∧ v.pc = if s.reg a = s.reg b then u.reg c else u.pc + 2#16) ∧
    (∃ v, exec (.jne (regByte c)) u = .next v ∧ v.pc = if s.reg a = s.reg b then u.pc + 2#16 else u.reg c)) ∧
  (∀ (n : Nat) (bs : List Byte) (s u : State), boot bs = some s → stepsWithoutCmp n s u → u.fl = false)

/-- R19, R23 (D14): only PRN changes OUT, by appending its register, and along any run between two host moves OUT only grows.
That a run holds no host reset, which R140 allows at any time, is the model's choice (log 11). -/
def Obligations.OutputOnlyGrowsByPrn : Prop :=
  (∀ s t : State, step s = .next t → t.out ≠ s.out →
    ∃ r : Reg, fetchInstr s = .ok (.prn (regByte r)) ∧ t.out = s.out ++ [s.reg r]) ∧
  (∀ (n : Nat) (s t : State), stepsTo n s t → s.out <+: t.out)

/-- R20: 256 cells, written only by PUSH and CALL, and read as data only by POP and RET: any other instruction does the same
whatever memory holds, and the byte it stores, if any, does not depend on what memory held. -/
def Obligations.MemoryIsWrittenByPushAndCallOnly : Prop :=
  (∀ (s : State) (a : Nat), (∃ v, memRead s a = .ok v) ↔ a ≤ 255) ∧
  (∀ s t : State, step s = .next t → t.mem ≠ s.mem → ∃ opA, fetchInstr s = .ok (.push opA) ∨ fetchInstr s = .ok (.call opA)) ∧
  (∀ (i : Instr) (s t : State) (m : Memory), (∀ opA, i ≠ .pop opA) → i ≠ .ret → exec i s = .next t →
    ∃ u, exec i { s with mem := m } = .next u ∧ { u with mem := t.mem } = t) ∧
  (∀ (i : Instr) (s t u : State) (m : Memory), (∀ opA, i ≠ .pop opA) → i ≠ .ret → s.mem.wf = true → m.wf = true →
    exec i s = .next t → exec i { s with mem := m } = .next u →
    ∀ a, memRead u a = memRead t a ∨ (memRead t a = memRead s a ∧ memRead u a = memRead { s with mem := m } a))

/-! ## Registers, memory, reset, load -/

/-- R31, R32: a write in range changes exactly its cell, which then reads as written; above 255 both accesses are
OutOfBounds with that address. -/
def Obligations.MemoryReadsWhatWasWritten : Prop :=
  ∀ (s : State) (a : Nat) (v : Byte), s.mem.wf = true →
    (a ≤ 255 → (∃ b, memRead s a = .ok b) ∧ ∃ t, memWrite s a v = .ok t ∧ memRead t a = .ok v ∧
      (∀ x, x ≠ a → memRead t x = memRead s x) ∧ { t with mem := s.mem } = s) ∧
    (255 < a → memRead s a = .error ⟨.outOfBounds, some a⟩ ∧ memWrite s a v = .error ⟨.outOfBounds, some a⟩)

/-- R10, R11, R12 (width: D2): each of the eight registers reads what was written to it, no other register or state
changes, and SP is register 7. -/
def Obligations.RegisterReadsWhatWasWritten : Prop :=
  ∀ (s : State) (r : Reg) (v : Word), (s.setReg r v).reg r = v ∧ SameRegsBut s (s.setReg r v) [r] ∧
    { s.setReg r v with regs := s.regs } = s ∧ s.sp = s.reg 7

/-- R22, R140 (x[0] to x[6] and FL: D11, log 2; reset at any time: D19): every piece of state after reset. -/
def Obligations.ResetValues : Prop :=
  (∀ r : Reg, r ≠ 7 → State.reset.reg r = 0#16) ∧ (State.reset.reg 7).toNat = 255 ∧ State.reset.pc = 0#16 ∧
  State.reset.fl = false ∧ State.reset.run = .running ∧ State.reset.fault = none ∧ State.reset.out = [] ∧
  (∀ a, a ≤ 255 → memRead State.reset a = .ok 0#8) ∧ ∀ s, hostReset s = State.reset

/-- R142: loading at most 256 bytes puts them from address 0 up over the reset state, leaves the other cells zero and
changes nothing but memory. -/
def Obligations.LoadPlacesProgramFromAddressZero : Prop :=
  (∀ bs : List Byte, bs.length ≤ 256 → ∃ s, boot bs = some s) ∧
  (∀ (bs : List Byte) (s : State), boot bs = some s →
    bs.length ≤ 256 ∧ (∀ (k : Nat) (h : k < bs.length), memRead s k = .ok bs[k]) ∧
    (∀ k, bs.length ≤ k → k ≤ 255 → memRead s k = .ok 0#8) ∧ { s with mem := State.reset.mem } = State.reset)

/-! ## Derived laws of the instructions -/

/-- R103 (D7): PUSH then POP of the same register. For `a` other than 7 the POP may run in any later state with the SP and the
cell of the PUSH; for R7 it follows at once. -/
def Obligations.PopAfterPushRestores : Prop :=
  (∀ (a : Reg) (s t u : State), a ≠ 7 → s.mem.wf = true → pushAddr s < 256 → exec (.push (regByte a)) s = .next t →
    u.sp = t.sp → memRead u (pushAddr s) = memRead t (pushAddr s) →
    ∃ v, exec (.pop (regByte a)) u = .next v ∧ v.sp = s.sp ∧ (v.reg a).toNat = (s.reg a).toNat % 256) ∧
  (∀ s t : State, s.mem.wf = true → pushAddr s < 256 → exec (.push (regByte 7)) s = .next t →
    ∃ v, exec (.pop (regByte 7)) t = .next v ∧ SameRegsBut s v [] ∧ SameMemBut s v [pushAddr s])

/-- R111: a RET in any state with the SP and the return cell the CALL left goes to the instruction after the CALL and restores
SP. -/
def Obligations.RetAfterCallReturns : Prop :=
  ∀ (a : Reg) (s t u : State), s.mem.wf = true → s.pc.toNat ≤ 253 → pushAddr s < 256 → exec (.call (regByte a)) s = .next t →
    u.sp = t.sp → memRead u (pushAddr s) = memRead t (pushAddr s) →
    ∃ v, exec .ret u = .next v ∧ v.pc = s.pc + 2#16 ∧ v.sp = s.sp

/-- R92: the quotient and the remainder of one state satisfy the division law exactly, with no wrap. -/
def Obligations.QuotientAndRemainderReconstruct : Prop :=
  ∀ (a b : Reg) (s : State), s.reg b ≠ 0#16 → ∃ t u,
    exec (.div (regByte a) (regByte b)) s = .next t ∧ exec (.mod (regByte a) (regByte b)) s = .next u ∧
    (t.reg a).toNat * (s.reg b).toNat + (u.reg a).toNat = (s.reg a).toNat ∧ (u.reg a).toNat < (s.reg b).toNat

/-- R92 (D3): SUB after ADD of the same other register restores the first, and the reverse. -/
def Obligations.SubUndoesAdd : Prop :=
  ∀ (a b : Reg) (s : State), a ≠ b →
    (∃ t u, exec (.add (regByte a) (regByte b)) s = .next t ∧ exec (.sub (regByte a) (regByte b)) t = .next u ∧
      u.reg a = s.reg a) ∧
    (∃ t u, exec (.sub (regByte a) (regByte b)) s = .next t ∧ exec (.add (regByte a) (regByte b)) t = .next u ∧
      u.reg a = s.reg a)

/-! ## The invariant -/

/-- The invariant holds at reset, and after every load. -/
def Obligations.InvariantHoldsAtResetAndLoad : Prop :=
  State.reset.Inv ∧ ∀ (bs : List Byte) (s : State), boot bs = some s → s.Inv

/-- From every state that meets it, a step keeps the invariant: canonical memory, FAULT set exactly in FAULTED, and every
record one R120 allows, charged to PC. -/
def Obligations.StepKeepsInvariant : Prop :=
  ∀ s t : State, s.Inv → step s = .next t → t.Inv

/-- R145, R18 (the content of a record: R120; that PC is still the faulting one: D8, log 5; a run is between two host moves: log
11): what any run of any loaded program owes the host when it looks. -/
def Obligations.RunOfAnyProgramReportsItsEnd : Prop :=
  ∀ (bs : List Byte) (n : Nat) (s t : State), boot bs = some s → stepsTo n s t →
    (t.run = .running → t.fault = none ∧ ∃ u, step t = .next u) ∧
    (t.run = .halted → t.fault = none) ∧
    (t.run = .faulted → ∃ f, t.fault = some f ∧ f.pc = t.pc ∧ f.ok)
end

