-- ==== Sys2Proof/Laws/Memory.lean ====
section
/-! SUPPORT. The laws of the cells: read after write, and every memory operation keeps the canonical form. -/

namespace Sys2Proof.Machine

@[simp] theorem Memory.wfFrom_nil (lo : Nat) : Memory.wfFrom lo [] = true := rfl

theorem Memory.wfFrom_cons {lo k : Nat} {b : Byte} {m : Memory} :
    Memory.wfFrom lo ((k, b) :: m) = true ↔ lo ≤ k ∧ k < 256 ∧ b ≠ 0#8 ∧ Memory.wfFrom (k + 1) m = true := by
  simp [Memory.wfFrom, and_assoc]

/-- A lower bound may be lowered. -/
theorem Memory.wfFrom_mono {lo lo' : Nat} {m : Memory} (h : lo' ≤ lo) (hw : Memory.wfFrom lo m = true) :
    Memory.wfFrom lo' m = true := by
  cases m with
  | nil => rfl
  | cons c m =>
    obtain ⟨k, b⟩ := c
    rw [Memory.wfFrom_cons] at *
    exact ⟨by omega, hw.2⟩

/-- Below the first address a canonical list reads 0. -/
theorem Memory.read_below {lo a : Nat} {m : Memory} (hw : Memory.wfFrom lo m = true) (h : a < lo) :
    Memory.read m a = 0#8 := by
  induction m generalizing lo with
  | nil => rfl
  | cons c m ih =>
    obtain ⟨k, b⟩ := c
    obtain ⟨h1, -, -, h4⟩ := Memory.wfFrom_cons.1 hw
    simp only [Memory.read, if_neg (show k ≠ a by omega)]
    exact ih h4 (by omega)

theorem Memory.entry_wfFrom {lo a : Nat} {v : Byte} {m : Memory} (hlo : lo ≤ a) (ha : a < 256)
    (hw : Memory.wfFrom (a + 1) m = true) : Memory.wfFrom lo (Memory.entry a v m) = true := by
  unfold Memory.entry
  split
  · exact Memory.wfFrom_mono (by omega) hw
  · exact Memory.wfFrom_cons.2 ⟨hlo, ha, ‹_›, hw⟩

theorem Memory.read_entry {a x : Nat} {v : Byte} {m : Memory} (h : x ≠ a) :
    Memory.read (Memory.entry a v m) x = Memory.read m x := by
  unfold Memory.entry
  split
  · rfl
  · simp [Memory.read, Ne.symm h]

theorem Memory.read_entry_same {a : Nat} {v : Byte} {m : Memory} (hw : Memory.wfFrom (a + 1) m = true) :
    Memory.read (Memory.entry a v m) a = v := by
  unfold Memory.entry
  split
  · rw [Memory.read_below hw (by omega)]; exact Eq.symm ‹_›
  · simp [Memory.read]

theorem Memory.write_wfFrom {lo a : Nat} {v : Byte} {m : Memory} (hlo : lo ≤ a) (ha : a < 256)
    (hw : Memory.wfFrom lo m = true) : Memory.wfFrom lo (Memory.write m a v) = true := by
  induction m generalizing lo with
  | nil => exact Memory.entry_wfFrom hlo ha rfl
  | cons c m ih =>
    obtain ⟨k, b⟩ := c
    obtain ⟨h1, h2, h3, h4⟩ := Memory.wfFrom_cons.1 hw
    unfold Memory.write
    split
    · exact Memory.wfFrom_cons.2 ⟨h1, h2, h3, ih (by omega) h4⟩
    · split
      · exact Memory.entry_wfFrom hlo ha (by subst_vars; exact h4)
      · exact Memory.entry_wfFrom hlo ha (Memory.wfFrom_cons.2 ⟨by omega, h2, h3, h4⟩)

/-- A store in the address space keeps the canonical form. -/
theorem Memory.write_wf {a : Nat} {v : Byte} {m : Memory} (ha : a < 256) (hw : m.wf = true) :
    (Memory.write m a v).wf = true := Memory.write_wfFrom (Nat.zero_le a) ha hw

/-- A store changes no other cell, whatever the list (R32). -/
theorem Memory.read_write_other {a x : Nat} {v : Byte} {m : Memory} (h : x ≠ a) :
    Memory.read (Memory.write m a v) x = Memory.read m x := by
  induction m with
  | nil => exact Memory.read_entry h
  | cons c m ih =>
    obtain ⟨k, b⟩ := c
    unfold Memory.write
    split
    · simp [Memory.read, ih]
    · split
      · rw [Memory.read_entry h]; subst_vars; simp [Memory.read, Ne.symm h]
      · exact Memory.read_entry h

theorem Memory.read_write_same_from {lo a : Nat} {v : Byte} {m : Memory} (hw : Memory.wfFrom lo m = true) :
    Memory.read (Memory.write m a v) a = v := by
  induction m generalizing lo with
  | nil => exact Memory.read_entry_same rfl
  | cons c m ih =>
    obtain ⟨k, b⟩ := c
    obtain ⟨h1, h2, h3, h4⟩ := Memory.wfFrom_cons.1 hw
    unfold Memory.write
    split
    · simp [Memory.read, show k ≠ a by omega, ih h4]
    · split
      · exact Memory.read_entry_same (by subst_vars; exact h4)
      · exact Memory.read_entry_same (Memory.wfFrom_cons.2 ⟨by omega, h2, h3, h4⟩)

/-- A load after a store to the same cell gives the stored byte (R32). -/
theorem Memory.read_write_same {a : Nat} {v : Byte} {m : Memory} (hw : m.wf = true) :
    Memory.read (Memory.write m a v) a = v := Memory.read_write_same_from hw

/-- Stores at ascending addresses in the address space keep the canonical form. -/
theorem Memory.writeBytes_wf {a : Nat} {bs : List Byte} {m : Memory} (ha : a + bs.length ≤ 256) (hw : m.wf = true) :
    (Memory.writeBytes m a bs).wf = true := by
  induction bs generalizing a m with
  | nil => exact hw
  | cons b bs ih =>
    simp only [List.length_cons] at ha
    exact ih (by omega) (Memory.write_wf (by omega) hw)

/-- What a cell reads after stores at ascending addresses. -/
theorem Memory.read_writeBytes {a x : Nat} {bs : List Byte} {m : Memory} (ha : a + bs.length ≤ 256)
    (hw : m.wf = true) :
    Memory.read (Memory.writeBytes m a bs) x = if a ≤ x ∧ x < a + bs.length then bs.getD (x - a) 0#8 else Memory.read m x := by
  induction bs generalizing a m with
  | nil => simp [Memory.writeBytes, show ¬(a ≤ x ∧ x < a) by omega]
  | cons b bs ih =>
    simp only [List.length_cons] at ha ⊢
    rw [Memory.writeBytes, ih (by omega) (Memory.write_wf (by omega) hw)]
    by_cases hx : x = a
    · subst hx
      simp [Memory.read_write_same hw]
    · rw [Memory.read_write_other hx]
      by_cases h : a + 1 ≤ x ∧ x < a + 1 + bs.length
      · rw [if_pos h, if_pos (by omega), show x - a = (x - (a + 1)) + 1 by omega, List.getD_cons_succ]
      · rw [if_neg h, if_neg (by omega)]

/-- Reset memory is canonical: nothing is listed. -/
theorem State.reset_mem_wf : State.reset.mem.wf = true := rfl

theorem Memory.ext_from {lo lo' : Nat} {m n : Memory} (hm : Memory.wfFrom lo m = true) (hn : Memory.wfFrom lo' n = true)
    (h : ∀ a, Memory.read m a = Memory.read n a) : m = n := by
  induction m generalizing lo lo' n with
  | nil =>
    cases n with
    | nil => rfl
    | cons c n =>
      obtain ⟨k, b⟩ := c
      have := h k
      simp [Memory.read] at this
      exact absurd this.symm (Memory.wfFrom_cons.1 hn).2.2.1
  | cons c m ih =>
    obtain ⟨k, b⟩ := c
    obtain ⟨-, -, hb, hm4⟩ := Memory.wfFrom_cons.1 hm
    cases n with
    | nil =>
      have := h k
      simp [Memory.read] at this
      exact absurd this hb
    | cons d n =>
      obtain ⟨j, e⟩ := d
      obtain ⟨-, -, he, hn4⟩ := Memory.wfFrom_cons.1 hn
      have hkj : k = j := by
        rcases Nat.lt_trichotomy k j with hlt | heq | hgt
        · have := h k
          simp only [Memory.read, if_true, if_neg (show j ≠ k by omega), Memory.read_below hn4 (show k < j + 1 by omega)] at this
          exact absurd this hb
        · exact heq
        · have := h j
          simp only [Memory.read, if_true, if_neg (show k ≠ j by omega), Memory.read_below hm4 (show j < k + 1 by omega)] at this
          exact absurd this.symm he
      subst hkj
      have hbe : b = e := by simpa [Memory.read] using h k
      subst hbe
      congr 1
      refine ih hm4 hn4 fun a => ?_
      by_cases hak : a = k
      · subst hak; rw [Memory.read_below hm4 (by omega), Memory.read_below hn4 (by omega)]
      · have := h a
        simpa [Memory.read, Ne.symm hak] using this

/-- Canonical memories that read alike are the same list: equal memories are equal data. -/
theorem Memory.ext_of_wf {m n : Memory} (hm : m.wf = true) (hn : n.wf = true)
    (h : ∀ a, Memory.read m a = Memory.read n a) : m = n := Memory.ext_from hm hn h

end Sys2Proof.Machine
end

