-- ==== Sys2Proof/Laws/State.lean ====
section
/-! SUPPORT. One lemma per field per update of State: later proofs never unfold a record update. -/

namespace Sys2Proof.Machine

variable (s : State) (r q : Reg) (v : Word) (b : Bool) (u : RunState) (e : Raised) (n : Nat)

@[simp] theorem setReg_pc : (s.setReg r v).pc = s.pc := rfl
@[simp] theorem setReg_fl : (s.setReg r v).fl = s.fl := rfl
@[simp] theorem setReg_run : (s.setReg r v).run = s.run := rfl
@[simp] theorem setReg_fault : (s.setReg r v).fault = s.fault := rfl
@[simp] theorem setReg_out : (s.setReg r v).out = s.out := rfl
@[simp] theorem setReg_mem : (s.setReg r v).mem = s.mem := rfl

@[simp] theorem setSp_pc : (s.setSp v).pc = s.pc := rfl
@[simp] theorem setSp_fl : (s.setSp v).fl = s.fl := rfl
@[simp] theorem setSp_run : (s.setSp v).run = s.run := rfl
@[simp] theorem setSp_fault : (s.setSp v).fault = s.fault := rfl
@[simp] theorem setSp_out : (s.setSp v).out = s.out := rfl
@[simp] theorem setSp_mem : (s.setSp v).mem = s.mem := rfl

@[simp] theorem setPc_pc : (s.setPc v).pc = v := rfl
@[simp] theorem setPc_fl : (s.setPc v).fl = s.fl := rfl
@[simp] theorem setPc_run : (s.setPc v).run = s.run := rfl
@[simp] theorem setPc_fault : (s.setPc v).fault = s.fault := rfl
@[simp] theorem setPc_out : (s.setPc v).out = s.out := rfl
@[simp] theorem setPc_mem : (s.setPc v).mem = s.mem := rfl
@[simp] theorem setPc_reg : (s.setPc v).reg r = s.reg r := rfl
@[simp] theorem setPc_sp : (s.setPc v).sp = s.sp := rfl

@[simp] theorem advance_pc : (s.advance n).pc = s.pc + BitVec.ofNat 16 n := rfl
@[simp] theorem advance_fl : (s.advance n).fl = s.fl := rfl
@[simp] theorem advance_run : (s.advance n).run = s.run := rfl
@[simp] theorem advance_fault : (s.advance n).fault = s.fault := rfl
@[simp] theorem advance_out : (s.advance n).out = s.out := rfl
@[simp] theorem advance_mem : (s.advance n).mem = s.mem := rfl
@[simp] theorem advance_reg : (s.advance n).reg r = s.reg r := rfl
@[simp] theorem advance_sp : (s.advance n).sp = s.sp := rfl

@[simp] theorem setFl_pc : (s.setFl b).pc = s.pc := rfl
@[simp] theorem setFl_fl : (s.setFl b).fl = b := rfl
@[simp] theorem setFl_run : (s.setFl b).run = s.run := rfl
@[simp] theorem setFl_fault : (s.setFl b).fault = s.fault := rfl
@[simp] theorem setFl_out : (s.setFl b).out = s.out := rfl
@[simp] theorem setFl_mem : (s.setFl b).mem = s.mem := rfl
@[simp] theorem setFl_reg : (s.setFl b).reg r = s.reg r := rfl

@[simp] theorem emit_pc : (s.emit v).pc = s.pc := rfl
@[simp] theorem emit_fl : (s.emit v).fl = s.fl := rfl
@[simp] theorem emit_run : (s.emit v).run = s.run := rfl
@[simp] theorem emit_fault : (s.emit v).fault = s.fault := rfl
@[simp] theorem emit_out : (s.emit v).out = s.out ++ [v] := rfl
@[simp] theorem emit_mem : (s.emit v).mem = s.mem := rfl
@[simp] theorem emit_reg : (s.emit v).reg r = s.reg r := rfl

@[simp] theorem setRun_pc : (s.setRun u).pc = s.pc := rfl
@[simp] theorem setRun_fl : (s.setRun u).fl = s.fl := rfl
@[simp] theorem setRun_run : (s.setRun u).run = u := rfl
@[simp] theorem setRun_fault : (s.setRun u).fault = s.fault := rfl
@[simp] theorem setRun_out : (s.setRun u).out = s.out := rfl
@[simp] theorem setRun_mem : (s.setRun u).mem = s.mem := rfl
@[simp] theorem setRun_reg : (s.setRun u).reg r = s.reg r := rfl

@[simp] theorem takeFault_pc : (takeFault e s).pc = s.pc := rfl
@[simp] theorem takeFault_fl : (takeFault e s).fl = s.fl := rfl
@[simp] theorem takeFault_run : (takeFault e s).run = .faulted := rfl
@[simp] theorem takeFault_fault : (takeFault e s).fault = some ⟨e.cause, e.info, s.pc⟩ := rfl
@[simp] theorem takeFault_out : (takeFault e s).out = s.out := rfl
@[simp] theorem takeFault_mem : (takeFault e s).mem = s.mem := rfl
@[simp] theorem takeFault_reg : (takeFault e s).reg r = s.reg r := rfl

/-- What a register reads after one register is written. -/
theorem reg_setReg : (s.setReg r v).reg q = if q = r then v else s.reg q := by
  simp only [State.reg, State.setReg, Vector.getElem_set]
  by_cases h : q = r
  · simp [h]
  · have : r.val ≠ q.val := fun he => h (Fin.ext he.symm)
    simp [h, this]

@[simp] theorem reg_setReg_same : (s.setReg r v).reg r = v := by simp [reg_setReg]

theorem reg_setReg_other (h : q ≠ r) : (s.setReg r v).reg q = s.reg q := by simp [reg_setReg, h]

/-- What a register reads after SP is written. -/
theorem reg_setSp : (s.setSp v).reg q = if q = Config.spReg then v else s.reg q := reg_setReg ..

@[simp] theorem sp_setSp : (s.setSp v).sp = v := reg_setReg_same ..

/-- What SP reads after a register is written. -/
theorem sp_setReg : (s.setReg r v).sp = if r = Config.spReg then v else s.sp := by
  simp only [State.sp, reg_setReg, eq_comm]

/-- Two states are equal when every register and every other field agree. -/
theorem State.ext_regs {s t : State} (hr : ∀ r, s.reg r = t.reg r) (hpc : s.pc = t.pc) (hfl : s.fl = t.fl)
    (hrun : s.run = t.run) (hfault : s.fault = t.fault) (hout : s.out = t.out) (hmem : s.mem = t.mem) : s = t := by
  cases s; cases t
  simp only [State.mk.injEq] at *
  refine ⟨Vector.ext fun i hi => hr ⟨i, hi⟩, hpc, hfl, hrun, hfault, hout, hmem⟩

end Sys2Proof.Machine
end

