-- ==== Sys2Proof/Laws/Ops.lean ====
section
/-! SUPPORT. One lemma for each shared operation: everything it can do. Callers cite these and do not unfold. -/

namespace Sys2Proof.Machine

/-! Except, as the effects use it. -/

@[simp] theorem except_bind_ok {α β : Type} (a : α) (f : α → Except Raised β) : (Except.ok a >>= f) = f a := rfl

@[simp] theorem except_bind_error {α β : Type} (e : Raised) (f : α → Except Raised β) :
    ((Except.error e : Except Raised α) >>= f) = .error e := rfl

@[simp] theorem except_pure {α : Type} (a : α) : (pure a : Except Raised α) = .ok a := rfl

/-- A bind that succeeds succeeds in both parts. -/
theorem except_bind_eq_ok {α β : Type} {x : Except Raised α} {f : α → Except Raised β} {b : β} :
    (x >>= f) = .ok b ↔ ∃ a, x = .ok a ∧ f a = .ok b := by
  cases x <;> simp

/-- A bind that raises raises in its first or its second part. -/
theorem except_bind_eq_error {α β : Type} {x : Except Raised α} {f : α → Except Raised β} {e : Raised} :
    (x >>= f) = .error e ↔ x = .error e ∨ ∃ a, x = .ok a ∧ f a = .error e := by
  cases x <;> simp

/-! commit and takeFault. -/

@[simp] theorem commit_ok (s t : State) : commit s (.ok t) = .next t := rfl

@[simp] theorem commit_error (s : State) (e : Raised) : commit s (.error e) = .next (takeFault e s) := rfl

/-- An instruction always ends in a next state: its own writes, or its one fault (R70, R128). -/
theorem commit_eq_next {s t : State} {r : Except Raised State} :
    commit s r = .next t ↔ r = .ok t ∨ ∃ e, r = .error e ∧ t = takeFault e s := by
  cases r <;> simp [eq_comm]

/-- Taking a fault leaves the state R128 describes. -/
theorem takeFault_eq (e : Raised) (s : State) : takeFault e s = faultedAt s e.cause e.info := rfl

/-! Memory accesses (R31, R32). -/

theorem memRead_ok {s : State} {a : Nat} (h : a < 256) : memRead s a = .ok (s.mem.read a) := if_pos h

theorem memRead_error {s : State} {a : Nat} (h : 255 < a) : memRead s a = .error (outOfBounds a) :=
  if_neg (show ¬a < 256 by omega)

theorem memRead_eq_ok {s : State} {a : Nat} {v : Byte} : memRead s a = .ok v ↔ a < 256 ∧ s.mem.read a = v := by
  unfold memRead; split <;> simp_all

theorem memRead_eq_error {s : State} {a : Nat} {e : Raised} : memRead s a = .error e ↔ 255 < a ∧ e = outOfBounds a := by
  have hc : Config.memSize = 256 := rfl
  unfold memRead; split
  · simp; omega
  · simp [eq_comm]; omega

theorem memWrite_ok {s : State} {a : Nat} {v : Byte} (h : a < 256) :
    memWrite s a v = .ok { s with mem := s.mem.write a v } := if_pos h

theorem memWrite_error {s : State} {a : Nat} {v : Byte} (h : 255 < a) : memWrite s a v = .error (outOfBounds a) :=
  if_neg (show ¬a < 256 by omega)

theorem memWrite_eq_ok {s t : State} {a : Nat} {v : Byte} :
    memWrite s a v = .ok t ↔ a < 256 ∧ t = { s with mem := s.mem.write a v } := by
  unfold memWrite; split <;> simp_all [eq_comm]

theorem memWrite_eq_error {s : State} {a : Nat} {v : Byte} {e : Raised} :
    memWrite s a v = .error e ↔ 255 < a ∧ e = outOfBounds a := by
  have hc : Config.memSize = 256 := rfl
  unfold memWrite; split
  · simp; omega
  · simp [eq_comm]; omega

/-- A MemWrite that completes keeps the canonical form. -/
theorem memWrite_wf {s t : State} {a : Nat} {v : Byte} (hw : s.mem.wf = true) (h : memWrite s a v = .ok t) :
    t.mem.wf = true := by
  obtain ⟨ha, rfl⟩ := memWrite_eq_ok.1 h
  exact Memory.write_wf ha hw

/-- Placing an instruction in the fetch window keeps the canonical form. -/
theorem withFetchWord_wf {s : State} (hw : s.mem.wf = true) (nbits w : Nat) : (s.withFetchWord nbits w).mem.wf = true := by
  by_cases hp : s.pc.toNat ≤ 256
  · exact Memory.writeBytes_wf (by
      have hc : Config.memSize = 256 := rfl
      simp only [List.length_take]; omega) hw
  · simp only [State.withFetchWord, show Config.memSize - s.pc.toNat = 0 from by simp only [Config.memSize]; omega]
    exact hw

/-- A load leaves canonical memory. -/
theorem boot_wf {bs : List Byte} {s : State} (h : boot bs = some s) : s.mem.wf = true := by
  unfold boot at h
  split at h
  · cases h; exact Memory.writeBytes_wf (by simpa using ‹bs.length ≤ Config.memSize›) rfl
  · cases h

/-- Equal memories read alike. -/
theorem memRead_congr {s t : State} (h : t.mem = s.mem) (a : Nat) : memRead t a = memRead s a := by
  simp only [memRead, h]

/-- Reads outside a stored cell are as before (R32). -/
theorem memRead_write_other {s t : State} {a x : Nat} {v : Byte} (h : t.mem = s.mem.write a v) (hx : x ≠ a) :
    memRead t x = memRead s x := by
  simp only [memRead, h, Memory.read_write_other hx]

/-! Operands (R13, R100). -/

@[simp] theorem regByte_toNat (r : Reg) : (regByte r).toNat = r.val := by
  simp only [regByte, BitVec.toNat_ofNat]; omega

@[simp] theorem regidx_regByte (r : Reg) : regidx (regByte r) = .ok r := by
  simp [regidx]

theorem regidx_eq_ok {b : Byte} {r : Reg} : regidx b = .ok r ↔ b = regByte r := by
  constructor
  · intro h
    unfold regidx at h
    split at h
    · cases h
      exact BitVec.eq_of_toNat_eq (by simp)
    · cases h
  · rintro rfl; exact regidx_regByte r

theorem regidx_error {b : Byte} (h : 8 ≤ b.toNat) : regidx b = .error (invalidRegister b) :=
  dif_neg (show ¬b.toNat < 8 by omega)

theorem regidx_eq_error {b : Byte} {e : Raised} : regidx b = .error e ↔ 8 ≤ b.toNat ∧ e = invalidRegister b := by
  unfold regidx; split <;> simp_all [eq_comm]

/-- A legal operand byte names a register. -/
theorem exists_regByte {b : Byte} (h : b.toNat < 8) : ∃ r, b = regByte r :=
  ⟨⟨b.toNat, h⟩, BitVec.eq_of_toNat_eq (by simp)⟩

@[simp] theorem regidx2_regByte (a b : Reg) : regidx2 (regByte a) (regByte b) = .ok (a, b) := by
  simp [regidx2]

theorem regidx2_eq_ok {opA opB : Byte} {p : Reg × Reg} :
    regidx2 opA opB = .ok p ↔ opA = regByte p.1 ∧ opB = regByte p.2 := by
  obtain ⟨a, b⟩ := p
  simp [regidx2, except_bind_eq_ok, regidx_eq_ok]

/-- `opA` is checked first: a fault on it hides one on `opB` (R13). -/
theorem regidx2_eq_error {opA opB : Byte} {e : Raised} :
    regidx2 opA opB = .error e ↔
      (8 ≤ opA.toNat ∧ e = invalidRegister opA) ∨ (opA.toNat < 8 ∧ 8 ≤ opB.toNat ∧ e = invalidRegister opB) := by
  simp only [regidx2, except_bind_eq_error, regidx_eq_error, regidx_eq_ok, except_pure]
  constructor
  · rintro (h | ⟨a, rfl, h | ⟨b, -, h⟩⟩)
    · exact .inl h
    · exact .inr ⟨by simp, h⟩
    · cases h
  · rintro (h | ⟨h1, h2⟩)
    · exact .inl h
    · obtain ⟨a, rfl⟩ := exists_regByte h1
      exact .inr ⟨a, rfl, .inl h2⟩

theorem zext16_toNat (b : Byte) : (zext16 b).toNat = b.toNat := by
  simp only [zext16, BitVec.toNat_setWidth]; omega

theorem lowByte_toNat (v : Word) : (lowByte v).toNat = v.toNat % 256 := by
  simp only [lowByte, BitVec.toNat_setWidth]

@[simp] theorem preDecrementSp_pc (s : State) : (preDecrementSp s).pc = s.pc := rfl
@[simp] theorem preDecrementSp_fl (s : State) : (preDecrementSp s).fl = s.fl := rfl
@[simp] theorem preDecrementSp_run (s : State) : (preDecrementSp s).run = s.run := rfl
@[simp] theorem preDecrementSp_fault (s : State) : (preDecrementSp s).fault = s.fault := rfl
@[simp] theorem preDecrementSp_out (s : State) : (preDecrementSp s).out = s.out := rfl
@[simp] theorem preDecrementSp_mem (s : State) : (preDecrementSp s).mem = s.mem := rfl
theorem preDecrementSp_reg (s : State) (r : Reg) :
    (preDecrementSp s).reg r = if r = Config.spReg then s.sp - 1#16 else s.reg r := reg_setSp ..
@[simp] theorem preDecrementSp_sp (s : State) : (preDecrementSp s).sp = s.sp - 1#16 := sp_setSp ..

@[simp] theorem postIncrementSp_pc (s : State) : (postIncrementSp s).pc = s.pc := rfl
@[simp] theorem postIncrementSp_fl (s : State) : (postIncrementSp s).fl = s.fl := rfl
@[simp] theorem postIncrementSp_run (s : State) : (postIncrementSp s).run = s.run := rfl
@[simp] theorem postIncrementSp_fault (s : State) : (postIncrementSp s).fault = s.fault := rfl
@[simp] theorem postIncrementSp_out (s : State) : (postIncrementSp s).out = s.out := rfl
@[simp] theorem postIncrementSp_mem (s : State) : (postIncrementSp s).mem = s.mem := rfl
theorem postIncrementSp_reg (s : State) (r : Reg) :
    (postIncrementSp s).reg r = if r = Config.spReg then s.sp + 1#16 else s.reg r := reg_setSp ..
@[simp] theorem postIncrementSp_sp (s : State) : (postIncrementSp s).sp = s.sp + 1#16 := sp_setSp ..

/-- The address of a push as R100 writes it, exact and modulo 2^16. -/
theorem pushAddr_eq (s : State) : pushAddr s = (s.sp.toNat + 65535) % 65536 := by
  simp only [pushAddr, BitVec.toNat_sub]
  simp; omega

/-- Everything a push that succeeds does (R100). -/
theorem pushLow_eq_ok {s t : State} {v : Word} :
    pushLow s v = .ok t ↔
      pushAddr s < 256 ∧ t = { preDecrementSp s with mem := s.mem.write (pushAddr s) (lowByte v) } := memWrite_eq_ok

theorem pushLow_ok {s : State} {v : Word} (h : pushAddr s < 256) :
    pushLow s v = .ok { preDecrementSp s with mem := s.mem.write (pushAddr s) (lowByte v) } := memWrite_ok h

theorem pushLow_error {s : State} {v : Word} (h : 255 < pushAddr s) :
    pushLow s v = .error (outOfBounds (pushAddr s)) := memWrite_error h

theorem pushLow_eq_error {s : State} {v : Word} {e : Raised} :
    pushLow s v = .error e ↔ 255 < pushAddr s ∧ e = outOfBounds (pushAddr s) := memWrite_eq_error

theorem readTop_ok {s : State} (h : popAddr s < 256) : readTop s = .ok (s.mem.read (popAddr s)) := memRead_ok h

theorem readTop_error {s : State} (h : 255 < popAddr s) : readTop s = .error (outOfBounds (popAddr s)) := memRead_error h

theorem readTop_eq_ok {s : State} {v : Byte} : readTop s = .ok v ↔ popAddr s < 256 ∧ s.mem.read (popAddr s) = v :=
  memRead_eq_ok

theorem readTop_eq_error {s : State} {e : Raised} : readTop s = .error e ↔ 255 < popAddr s ∧ e = outOfBounds (popAddr s) :=
  memRead_eq_error

end Sys2Proof.Machine
end

