-- ==== Sys2Proof/Laws/Alu.lean ====
section
/-! SUPPORT. What each ALU function computes, on the unsigned values (R86 to R90), and their common shape (R85). -/

namespace Sys2Proof.Machine

/-- Everything ADD computes (R86). -/
theorem aluAdd_eq_ok {va vb v : Word} : aluAdd va vb = .ok v ↔ v.toNat = (va.toNat + vb.toNat) % 65536 := by
  simp only [aluAdd, Except.ok.injEq]
  exact ⟨fun h => h ▸ BitVec.toNat_ofNat .., fun h => BitVec.eq_of_toNat_eq ((BitVec.toNat_ofNat ..).trans h.symm)⟩

/-- Everything SUB computes, in the two cases of R87. -/
theorem aluSub_eq_ok {va vb v : Word} :
    aluSub va vb = .ok v ↔
      v.toNat = if vb.toNat ≤ va.toNat then va.toNat - vb.toNat else va.toNat + 65536 - vb.toNat := by
  simp only [aluSub, Except.ok.injEq]
  have hv : (BitVec.ofInt 16 ((va.toNat : Int) - vb.toNat)).toNat =
      if vb.toNat ≤ va.toNat then va.toNat - vb.toNat else va.toNat + 65536 - vb.toNat := by
    rw [BitVec.toNat_ofInt]
    have := va.isLt; have := vb.isLt
    split <;> omega
  exact ⟨fun h => h ▸ hv, fun h => BitVec.eq_of_toNat_eq (hv.trans h.symm)⟩

/-- Everything MUL computes (R88). -/
theorem aluMul_eq_ok {va vb v : Word} : aluMul va vb = .ok v ↔ v.toNat = va.toNat * vb.toNat % 65536 := by
  rw [aluMul, Except.ok.injEq]
  exact ⟨fun h => h ▸ BitVec.toNat_ofNat .., fun h => BitVec.eq_of_toNat_eq ((BitVec.toNat_ofNat ..).trans h.symm)⟩

theorem checkDivisor_eq_ok {vb : Word} {u : Unit} : checkDivisor vb = .ok u ↔ vb ≠ 0#16 := by
  unfold checkDivisor; split <;> simp_all

theorem checkDivisor_eq_error {vb : Word} {e : Raised} : checkDivisor vb = .error e ↔ vb = 0#16 ∧ e = divisionByZero := by
  unfold checkDivisor; split
  · simp only [Except.error.injEq, true_and, *]; exact eq_comm
  · simp [*]

/-- Everything DIV computes (R89). -/
theorem aluDiv_eq_ok {va vb v : Word} : aluDiv va vb = .ok v ↔ vb ≠ 0#16 ∧ v.toNat = va.toNat / vb.toNat := by
  have hlt : va.toNat / vb.toNat < 65536 := Nat.lt_of_le_of_lt (Nat.div_le_self ..) va.isLt
  simp only [aluDiv, except_bind_eq_ok, checkDivisor_eq_ok, except_pure, Except.ok.injEq]
  constructor
  · rintro ⟨-, h, rfl⟩; exact ⟨h, by simp [Nat.mod_eq_of_lt hlt]⟩
  · rintro ⟨h, hv⟩; exact ⟨(), h, BitVec.eq_of_toNat_eq (by simp [hv, Nat.mod_eq_of_lt hlt])⟩

/-- Everything MOD computes (R90). -/
theorem aluMod_eq_ok {va vb v : Word} : aluMod va vb = .ok v ↔ vb ≠ 0#16 ∧ v.toNat = va.toNat % vb.toNat := by
  have hlt : va.toNat % vb.toNat < 65536 := Nat.lt_of_le_of_lt (Nat.mod_le ..) va.isLt
  simp only [aluMod, except_bind_eq_ok, checkDivisor_eq_ok, except_pure, Except.ok.injEq]
  constructor
  · rintro ⟨-, h, rfl⟩; exact ⟨h, by simp [Nat.mod_eq_of_lt hlt]⟩
  · rintro ⟨h, hv⟩; exact ⟨(), h, BitVec.eq_of_toNat_eq (by simp [hv, Nat.mod_eq_of_lt hlt])⟩

theorem aluAdd_ne_error (va vb : Word) (e : Raised) : aluAdd va vb ≠ .error e := nofun
theorem aluSub_ne_error (va vb : Word) (e : Raised) : aluSub va vb ≠ .error e := nofun
theorem aluMul_ne_error (va vb : Word) (e : Raised) : aluMul va vb ≠ .error e := nofun

/-- DIV raises only DivisionByZero, and exactly for a zero divisor (R123). -/
theorem aluDiv_eq_error {va vb : Word} {e : Raised} : aluDiv va vb = .error e ↔ vb = 0#16 ∧ e = divisionByZero := by
  simp [aluDiv, except_bind_eq_error, checkDivisor_eq_error]

/-- MOD raises only DivisionByZero, and exactly for a zero divisor (R123). -/
theorem aluMod_eq_error {va vb : Word} {e : Raised} : aluMod va vb = .error e ↔ vb = 0#16 ∧ e = divisionByZero := by
  simp [aluMod, except_bind_eq_error, checkDivisor_eq_error]

/-- Everything an ALU instruction that succeeds does (R85). -/
theorem aluOp_eq_ok {f : Word → Word → Except Raised Word} {opA opB : Byte} {s t : State} :
    aluOp f opA opB s = .ok t ↔
      ∃ a b v, opA = regByte a ∧ opB = regByte b ∧ f (s.reg a) (s.reg b) = .ok v ∧ t = (s.setReg a v).advance 3 := by
  simp only [aluOp, except_bind_eq_ok, regidx2_eq_ok, except_pure, Except.ok.injEq]
  constructor
  · rintro ⟨⟨a, b⟩, ⟨rfl, rfl⟩, v, hf, rfl⟩; exact ⟨a, b, v, rfl, rfl, hf, rfl⟩
  · rintro ⟨a, b, v, rfl, rfl, hf, rfl⟩; exact ⟨(a, b), ⟨rfl, rfl⟩, v, hf, rfl⟩

/-- Every fault of an ALU instruction, in the order of R85. -/
theorem aluOp_eq_error {f : Word → Word → Except Raised Word} {opA opB : Byte} {s : State} {e : Raised} :
    aluOp f opA opB s = .error e ↔
      regidx2 opA opB = .error e ∨ ∃ a b, opA = regByte a ∧ opB = regByte b ∧ f (s.reg a) (s.reg b) = .error e := by
  simp only [aluOp, except_bind_eq_error, regidx2_eq_ok, except_pure]
  constructor
  · rintro (h | ⟨⟨a, b⟩, ⟨rfl, rfl⟩, hf | ⟨v, -, h⟩⟩)
    · exact .inl h
    · exact .inr ⟨a, b, rfl, rfl, hf⟩
    · cases h
  · rintro (h | ⟨a, b, rfl, rfl, hf⟩)
    · exact .inl h
    · exact .inr ⟨(a, b), ⟨rfl, rfl⟩, .inl hf⟩

end Sys2Proof.Machine
end

