-- ==== Sys2Proof/Laws/Decode.lean ====
section
/-! SUPPORT. What decode can answer: said once, by case analysis on the opcode byte (R72). -/

namespace Sys2Proof

/-- The opcode byte an instruction is encoded with. -/
def opcodeOf (i : Instr) : Byte := (encode i).headD 0#8

/-- Decode answers the instruction whose encoding starts with the byte, or rejects a byte that is no opcode. -/
theorem decode_cases (ir opA opB : Byte) :
    (∃ i, decode ir opA opB = .ok i ∧ opcodeOf i = ir ∧ ir ∈ opcodes) ∨
    (decode ir opA opB = .error (.unknownInstruction ir) ∧ ir ∉ opcodes) := by
  unfold decode
  split
  all_goals first
    | exact .inl ⟨_, rfl, rfl, by decide⟩
    | refine .inr ⟨rfl, ?_⟩
      simp only [opcodes, List.mem_cons, List.not_mem_nil, or_false, not_or]
      refine ⟨?_, ?_, ?_, ?_, ?_, ?_, ?_, ?_, ?_, ?_, ?_, ?_, ?_, ?_, ?_, ?_⟩ <;> assumption

/-- Decode of an opcode byte answers an instruction. -/
theorem decode_of_mem {ir : Byte} (h : ir ∈ opcodes) (opA opB : Byte) :
    ∃ i, decode ir opA opB = .ok i ∧ opcodeOf i = ir := by
  rcases decode_cases ir opA opB with ⟨i, h1, h2, -⟩ | ⟨-, h2⟩
  · exact ⟨i, h1, h2⟩
  · exact absurd h h2

/-- Decode rejects every other byte by name (R57). -/
theorem decode_of_not_mem {ir : Byte} (h : ir ∉ opcodes) (opA opB : Byte) :
    decode ir opA opB = .error (.unknownInstruction ir) := by
  rcases decode_cases ir opA opB with ⟨_, -, -, h2⟩ | ⟨h1, -⟩
  · exact absurd h2 h
  · exact h1

/-- What decode answered says which byte and which operands it read. -/
theorem decode_eq_ok {ir opA opB : Byte} {i : Instr} (h : decode ir opA opB = .ok i) :
    encode i = [ir, opA, opB].take i.length := by
  unfold decode at h
  split at h <;> cases h <;> rfl

/-- A rejection names the byte, and only a byte that is no opcode is rejected. -/
theorem decode_eq_error {ir opA opB : Byte} {e : DecodeError} (h : decode ir opA opB = .error e) :
    e = .unknownInstruction ir ∧ ir ∉ opcodes := by
  rcases decode_cases ir opA opB with ⟨_, h1, -, -⟩ | ⟨h1, h2⟩
  · rw [h1] at h; cases h
  · rw [h1] at h; cases h; exact ⟨rfl, h2⟩

end Sys2Proof
end

