-- ==== Sys2Proof/Laws/Exec.lean ====
section
/-! SUPPORT. Once per instruction: everything its effect can do, and every fault it can raise. Then the step. -/

namespace Sys2Proof.Machine

variable {opA opB : Byte} {s t : State} {e : Raised}

/-- Everything LDI does (R80). -/
theorem ldiEffect_eq_ok : ldiEffect opA opB s = .ok t ↔
    ∃ a, opA = regByte a ∧ t = (s.setReg a (zext16 opB)).advance 3 := by
  simp [ldiEffect, except_bind_eq_ok, regidx_eq_ok, eq_comm (a := t)]

theorem ldiEffect_eq_error : ldiEffect opA opB s = .error e ↔ regidx opA = .error e := by
  simp [ldiEffect, except_bind_eq_error]

/-- Everything PRN does (R81). -/
theorem prnEffect_eq_ok : prnEffect opA s = .ok t ↔ ∃ a, opA = regByte a ∧ t = (s.emit (s.reg a)).advance 2 := by
  simp [prnEffect, except_bind_eq_ok, regidx_eq_ok, eq_comm (a := t)]

theorem prnEffect_eq_error : prnEffect opA s = .error e ↔ regidx opA = .error e := by
  simp [prnEffect, except_bind_eq_error]

/-- Everything CMP does (R95). -/
theorem cmpEffect_eq_ok : cmpEffect opA opB s = .ok t ↔
    ∃ a b, opA = regByte a ∧ opB = regByte b ∧ t = (s.setFl (equalFlag (s.reg a) (s.reg b))).advance 3 := by
  simp [cmpEffect, except_bind_eq_ok, regidx2_eq_ok, and_assoc, eq_comm (a := t)]

theorem cmpEffect_eq_error : cmpEffect opA opB s = .error e ↔ regidx2 opA opB = .error e := by
  simp [cmpEffect, except_bind_eq_error]

/-- Everything PUSH does (R101). -/
theorem pushEffect_eq_ok : pushEffect opA s = .ok t ↔
    ∃ a, opA = regByte a ∧ pushAddr s < 256 ∧
      t = ({ preDecrementSp s with mem := s.mem.write (pushAddr s) (lowByte ((preDecrementSp s).reg a)) } : State).advance 2 := by
  simp only [pushEffect, except_bind_eq_ok, regidx_eq_ok, pushLow_eq_ok, except_pure, Except.ok.injEq]
  constructor
  · rintro ⟨a, rfl, u, ⟨h, rfl⟩, rfl⟩; exact ⟨a, rfl, h, rfl⟩
  · rintro ⟨a, rfl, h, rfl⟩; exact ⟨a, rfl, _, ⟨h, rfl⟩, rfl⟩

theorem pushEffect_eq_error : pushEffect opA s = .error e ↔
    regidx opA = .error e ∨ ∃ a, opA = regByte a ∧ 255 < pushAddr s ∧ e = outOfBounds (pushAddr s) := by
  simp [pushEffect, except_bind_eq_error, regidx_eq_ok, pushLow_eq_error]

/-- Everything POP does (R102). -/
theorem popEffect_eq_ok : popEffect opA s = .ok t ↔
    ∃ a, opA = regByte a ∧ popAddr s < 256 ∧
      t = (postIncrementSp (s.setReg a (zext16 (s.mem.read (popAddr s))))).advance 2 := by
  simp only [popEffect, except_bind_eq_ok, regidx_eq_ok, readTop_eq_ok, except_pure, Except.ok.injEq]
  constructor
  · rintro ⟨a, rfl, u, ⟨h, rfl⟩, rfl⟩; exact ⟨a, rfl, h, rfl⟩
  · rintro ⟨a, rfl, h, rfl⟩; exact ⟨a, rfl, _, ⟨h, rfl⟩, rfl⟩

theorem popEffect_eq_error : popEffect opA s = .error e ↔
    regidx opA = .error e ∨ ∃ a, opA = regByte a ∧ 255 < popAddr s ∧ e = outOfBounds (popAddr s) := by
  simp [popEffect, except_bind_eq_error, regidx_eq_ok, readTop_eq_error]

/-- Everything JMP does (R105). -/
theorem jmpEffect_eq_ok : jmpEffect opA s = .ok t ↔ ∃ a, opA = regByte a ∧ t = s.setPc (s.reg a) := by
  simp [jmpEffect, except_bind_eq_ok, regidx_eq_ok, eq_comm (a := t)]

theorem jmpEffect_eq_error : jmpEffect opA s = .error e ↔ regidx opA = .error e := by
  simp [jmpEffect, except_bind_eq_error]

/-- Everything JEQ and JNE do (R106, R107). -/
theorem jumpIf_eq_ok {c : Bool} : jumpIf c opA s = .ok t ↔
    ∃ a, opA = regByte a ∧ t = if c then s.setPc (s.reg a) else s.advance 2 := by
  simp only [jumpIf, except_bind_eq_ok, regidx_eq_ok, except_pure, Except.ok.injEq, eq_comm (a := t)]

theorem jumpIf_eq_error {c : Bool} : jumpIf c opA s = .error e ↔ regidx opA = .error e := by
  simp [jumpIf, except_bind_eq_error]

/-- Everything CALL does (R108). -/
theorem callEffect_eq_ok : callEffect opA s = .ok t ↔
    ∃ a, opA = regByte a ∧ pushAddr s < 256 ∧
      t = ({ preDecrementSp s with mem := s.mem.write (pushAddr s) (lowByte (returnAddress s)) } : State).setPc
        ((preDecrementSp s).reg a) := by
  simp only [callEffect, except_bind_eq_ok, regidx_eq_ok, pushLow_eq_ok, except_pure, Except.ok.injEq]
  constructor
  · rintro ⟨a, rfl, u, ⟨h, rfl⟩, rfl⟩; exact ⟨a, rfl, h, rfl⟩
  · rintro ⟨a, rfl, h, rfl⟩; exact ⟨a, rfl, _, ⟨h, rfl⟩, rfl⟩

theorem callEffect_eq_error : callEffect opA s = .error e ↔
    regidx opA = .error e ∨ ∃ a, opA = regByte a ∧ 255 < pushAddr s ∧ e = outOfBounds (pushAddr s) := by
  simp [callEffect, except_bind_eq_error, regidx_eq_ok, pushLow_eq_error]

/-- Everything RET does (R109). -/
theorem retEffect_eq_ok : retEffect s = .ok t ↔
    popAddr s < 256 ∧ t = (postIncrementSp s).setPc (zext16 (s.mem.read (popAddr s))) := by
  simp only [retEffect, except_bind_eq_ok, readTop_eq_ok, except_pure, Except.ok.injEq]
  constructor
  · rintro ⟨v, ⟨h, rfl⟩, rfl⟩; exact ⟨h, rfl⟩
  · rintro ⟨h, rfl⟩; exact ⟨_, ⟨h, rfl⟩, rfl⟩

theorem retEffect_eq_error : retEffect s = .error e ↔ 255 < popAddr s ∧ e = outOfBounds (popAddr s) := by
  simp [retEffect, except_bind_eq_error, readTop_eq_error]

/-- What an instruction does before it is committed: its writes, or the fault it raises. -/
def effect (i : Instr) (s : State) : Except Raised State :=
  match i with
  | .hlt => hltEffect s
  | .ldi opA opB => ldiEffect opA opB s
  | .prn opA => prnEffect opA s
  | .add opA opB => aluOp aluAdd opA opB s
  | .sub opA opB => aluOp aluSub opA opB s
  | .mul opA opB => aluOp aluMul opA opB s
  | .div opA opB => aluOp aluDiv opA opB s
  | .mod opA opB => aluOp aluMod opA opB s
  | .cmp opA opB => cmpEffect opA opB s
  | .push opA => pushEffect opA s
  | .pop opA => popEffect opA s
  | .call opA => callEffect opA s
  | .ret => retEffect s
  | .jmp opA => jmpEffect opA s
  | .jeq opA => jumpIf s.fl opA s
  | .jne opA => jumpIf (!s.fl) opA s

/-- Every instruction is its effect, committed. -/
theorem exec_eq_commit (i : Instr) (s : State) : exec i s = commit s (effect i s) := by
  cases i <;> rfl

/-- What an instruction that ends in `t` did: its effect, or the one fault it took. -/
theorem exec_eq_next {i : Instr} : exec i s = .next t ↔
    effect i s = .ok t ∨ ∃ e, effect i s = .error e ∧ t = takeFault e s := by
  rw [exec_eq_commit, commit_eq_next]

/-- A successful effect sets no fault record, and leaves RUNNING only by HLT (R17, R128). -/
theorem effect_control {i : Instr} (h : effect i s = .ok t) :
    t.fault = s.fault ∧ (t.run = s.run ∨ i = .hlt ∧ t.run = .halted) := by
  cases i <;> simp only [effect] at h
  case hlt => cases h; exact ⟨rfl, .inr ⟨rfl, rfl⟩⟩
  case ldi => obtain ⟨a, -, rfl⟩ := ldiEffect_eq_ok.1 h; exact ⟨rfl, .inl rfl⟩
  case prn => obtain ⟨a, -, rfl⟩ := prnEffect_eq_ok.1 h; exact ⟨rfl, .inl rfl⟩
  case cmp => obtain ⟨a, b, -, -, rfl⟩ := cmpEffect_eq_ok.1 h; exact ⟨rfl, .inl rfl⟩
  case push => obtain ⟨a, -, -, rfl⟩ := pushEffect_eq_ok.1 h; exact ⟨rfl, .inl rfl⟩
  case pop => obtain ⟨a, -, -, rfl⟩ := popEffect_eq_ok.1 h; exact ⟨rfl, .inl rfl⟩
  case call => obtain ⟨a, -, -, rfl⟩ := callEffect_eq_ok.1 h; exact ⟨rfl, .inl rfl⟩
  case ret => obtain ⟨-, rfl⟩ := retEffect_eq_ok.1 h; exact ⟨rfl, .inl rfl⟩
  case jmp => obtain ⟨a, -, rfl⟩ := jmpEffect_eq_ok.1 h; exact ⟨rfl, .inl rfl⟩
  case jeq => obtain ⟨a, -, rfl⟩ := jumpIf_eq_ok.1 h; split <;> exact ⟨rfl, .inl rfl⟩
  case jne => obtain ⟨a, -, rfl⟩ := jumpIf_eq_ok.1 h; split <;> exact ⟨rfl, .inl rfl⟩
  all_goals obtain ⟨a, b, v, -, -, -, rfl⟩ := aluOp_eq_ok.1 h; exact ⟨rfl, .inl rfl⟩

/-- A successful effect leaves memory alone, or is a push that stored one byte in one cell (R20, R32). -/
theorem effect_mem {i : Instr} (h : effect i s = .ok t) :
    t.mem = s.mem ∨ ((∃ a, i = .push a ∨ i = .call a) ∧ pushAddr s < 256 ∧ ∃ v, t.mem = s.mem.write (pushAddr s) v) := by
  cases i <;> simp only [effect] at h
  case hlt => cases h; exact .inl rfl
  case ldi => obtain ⟨a, -, rfl⟩ := ldiEffect_eq_ok.1 h; exact .inl rfl
  case prn => obtain ⟨a, -, rfl⟩ := prnEffect_eq_ok.1 h; exact .inl rfl
  case cmp => obtain ⟨a, b, -, -, rfl⟩ := cmpEffect_eq_ok.1 h; exact .inl rfl
  case push => obtain ⟨a, -, hp, rfl⟩ := pushEffect_eq_ok.1 h; exact .inr ⟨⟨_, .inl rfl⟩, hp, _, rfl⟩
  case pop => obtain ⟨a, -, -, rfl⟩ := popEffect_eq_ok.1 h; exact .inl rfl
  case call => obtain ⟨a, -, hp, rfl⟩ := callEffect_eq_ok.1 h; exact .inr ⟨⟨_, .inr rfl⟩, hp, _, rfl⟩
  case ret => obtain ⟨-, rfl⟩ := retEffect_eq_ok.1 h; exact .inl rfl
  case jmp => obtain ⟨a, -, rfl⟩ := jmpEffect_eq_ok.1 h; exact .inl rfl
  case jeq => obtain ⟨a, -, rfl⟩ := jumpIf_eq_ok.1 h; split <;> exact .inl rfl
  case jne => obtain ⟨a, -, rfl⟩ := jumpIf_eq_ok.1 h; split <;> exact .inl rfl
  all_goals obtain ⟨a, b, v, -, -, -, rfl⟩ := aluOp_eq_ok.1 h; exact .inl rfl

/-- Every fault an instruction can raise: an illegal index, a zero divisor, a stack access above 255 (R127, R137). -/
theorem effect_error {i : Instr} (h : effect i s = .error e) :
    (∃ b ∈ i.regOperands, 7 < b.toNat ∧ e = invalidRegister b) ∨
    (e = divisionByZero ∧ ∃ a b : Reg, (i = .div (regByte a) (regByte b) ∨ i = .mod (regByte a) (regByte b)) ∧ s.reg b = 0#16) ∨
    (∃ a, stackAddr i s = some a ∧ 255 < a ∧ a < 65536 ∧ e = outOfBounds a) := by
  have hi : ∀ a, regidx a = .error e → ∀ l : List Byte, a ∈ l → (∃ b ∈ l, 7 < b.toNat ∧ e = invalidRegister b) := by
    intro a ha l hl
    exact ⟨a, hl, (regidx_eq_error.1 ha).1, (regidx_eq_error.1 ha).2⟩
  have hi2 : ∀ a b, regidx2 a b = .error e → (∃ x ∈ [a, b], 7 < x.toNat ∧ e = invalidRegister x) := by
    intro a b hab
    rcases regidx2_eq_error.1 hab with ⟨h1, h2⟩ | ⟨-, h1, h2⟩
    · exact ⟨a, by simp, h1, h2⟩
    · exact ⟨b, by simp, h1, h2⟩
  have hlt : pushAddr s < 65536 := by rw [pushAddr_eq]; omega
  have hlt2 : popAddr s < 65536 := s.sp.isLt
  cases i <;> simp only [effect] at h
  case hlt => cases h
  case ldi => exact .inl (hi _ (ldiEffect_eq_error.1 h) _ (by simp [Instr.regOperands]))
  case prn => exact .inl (hi _ (prnEffect_eq_error.1 h) _ (by simp [Instr.regOperands]))
  case cmp => exact .inl (hi2 _ _ (cmpEffect_eq_error.1 h))
  case push =>
    rcases pushEffect_eq_error.1 h with h | ⟨a, -, h1, h2⟩
    · exact .inl (hi _ h _ (by simp [Instr.regOperands]))
    · exact .inr (.inr ⟨pushAddr s, by simp [stackAddr, pushAddr_eq], h1, hlt, h2⟩)
  case call =>
    rcases callEffect_eq_error.1 h with h | ⟨a, -, h1, h2⟩
    · exact .inl (hi _ h _ (by simp [Instr.regOperands]))
    · exact .inr (.inr ⟨pushAddr s, by simp [stackAddr, pushAddr_eq], h1, hlt, h2⟩)
  case pop =>
    rcases popEffect_eq_error.1 h with h | ⟨a, -, h1, h2⟩
    · exact .inl (hi _ h _ (by simp [Instr.regOperands]))
    · exact .inr (.inr ⟨popAddr s, rfl, h1, hlt2, h2⟩)
  case ret => obtain ⟨h1, h2⟩ := retEffect_eq_error.1 h; exact .inr (.inr ⟨popAddr s, rfl, h1, hlt2, h2⟩)
  case jmp => exact .inl (hi _ (jmpEffect_eq_error.1 h) _ (by simp [Instr.regOperands]))
  case jeq => exact .inl (hi _ (jumpIf_eq_error.1 h) _ (by simp [Instr.regOperands]))
  case jne => exact .inl (hi _ (jumpIf_eq_error.1 h) _ (by simp [Instr.regOperands]))
  case div =>
    rcases aluOp_eq_error.1 h with h | ⟨a, b, rfl, rfl, hz⟩
    · exact .inl (hi2 _ _ h)
    · obtain ⟨h1, h2⟩ := aluDiv_eq_error.1 hz; exact .inr (.inl ⟨h2, a, b, .inl rfl, h1⟩)
  case mod =>
    rcases aluOp_eq_error.1 h with h | ⟨a, b, rfl, rfl, hz⟩
    · exact .inl (hi2 _ _ h)
    · obtain ⟨h1, h2⟩ := aluMod_eq_error.1 hz; exact .inr (.inl ⟨h2, a, b, .inr rfl, h1⟩)
  all_goals
    rcases aluOp_eq_error.1 h with h | ⟨a, b, rfl, rfl, hz⟩
    · exact .inl (hi2 _ _ h)
    · cases hz

/-- The fetch stage: the three bytes, or the lowest address out of bounds (R71). -/
theorem fetch_eq (s : State) : fetch s =
    if 255 < s.pc.toNat then .error (outOfBounds s.pc.toNat)
    else if 253 < s.pc.toNat then .error (outOfBounds 256)
    else .ok (s.mem.read s.pc.toNat, s.mem.read (s.pc.toNat + 1), s.mem.read (s.pc.toNat + 2)) := by
  unfold fetch
  split
  · rw [memRead_error ‹_›]; rfl
  · rw [memRead_ok (by omega)]
    split
    · by_cases h : s.pc.toNat = 255
      · rw [memRead_error (a := s.pc.toNat + 1) (by omega), h]; rfl
      · rw [memRead_ok (a := s.pc.toNat + 1) (by omega), memRead_error (a := s.pc.toNat + 2) (by omega),
          show s.pc.toNat + 2 = 256 by omega]; rfl
    · rw [memRead_ok (a := s.pc.toNat + 1) (by omega), memRead_ok (a := s.pc.toNat + 2) (by omega)]; rfl

/-- A window in bounds is fetched (R71). -/
theorem fetch_ok (h : s.pc.toNat ≤ 253) :
    fetch s = .ok (s.mem.read s.pc.toNat, s.mem.read (s.pc.toNat + 1), s.mem.read (s.pc.toNat + 2)) := by
  rw [fetch_eq, if_neg (by omega), if_neg (by omega)]

/-- The instruction a step fetches, when it fetches one: PC is at most 253 and the window decodes to it. -/
theorem fetchInstr_eq_ok {i : Instr} : fetchInstr s = .ok i ↔
    s.pc.toNat ≤ 253 ∧
      decode (s.mem.read s.pc.toNat) (s.mem.read (s.pc.toNat + 1)) (s.mem.read (s.pc.toNat + 2)) = .ok i := by
  unfold fetchInstr
  rw [fetch_eq]
  split
  · simp; omega
  · split
    · simp; omega
    · simp only [except_bind_ok, decodeWindow]
      have : s.pc.toNat ≤ 253 := by omega
      split <;> simp_all

/-- Every fault of the fetch and decode stages: an address above 255, or a byte that is no opcode (R71, R72). -/
theorem fetchInstr_error (h : fetchInstr s = .error e) :
    (253 < s.pc.toNat ∧ ∃ a, 256 ≤ a ∧ a < 65536 ∧ e = outOfBounds a) ∨
    (s.pc.toNat ≤ 253 ∧ s.mem.read s.pc.toNat ∉ opcodes ∧ e = unknownInstruction (s.mem.read s.pc.toNat)) := by
  unfold fetchInstr at h
  rw [fetch_eq] at h
  have := s.pc.isLt
  split at h
  · cases h; exact .inl ⟨by omega, _, by omega, by omega, rfl⟩
  · split at h
    · cases h; exact .inl ⟨by omega, _, by omega, by omega, rfl⟩
    · simp only [except_bind_ok, decodeWindow] at h
      split at h
      · cases h
      · cases h; exact .inr ⟨by omega, (decode_eq_error ‹_›).2, rfl⟩

/-- A running machine's step is one commit: the fetched instruction's effect, or the first fault met (R70). -/
theorem step_running (h : s.run = .running) : step s = commit s (fetchInstr s >>= fun i => effect i s) := by
  simp only [step, h, noStep]
  cases fetchInstr s with
  | error e => rfl
  | ok i => exact exec_eq_commit i s

/-- A step exists only while RUN is RUNNING (R70, R75). -/
theorem step_next_running (h : step s = .next t) : s.run = .running := by
  cases hr : s.run <;> simp [step, hr, noStep] at h ⊢

/-- Everything a step that ends in `t` can have done. -/
theorem step_eq_next (h : step s = .next t) : s.run = .running ∧
    ((∃ i, fetchInstr s = .ok i ∧ effect i s = .ok t) ∨
     (∃ i e, fetchInstr s = .ok i ∧ effect i s = .error e ∧ t = takeFault e s) ∨
     (∃ e, fetchInstr s = .error e ∧ t = takeFault e s)) := by
  have hr := step_next_running h
  refine ⟨hr, ?_⟩
  rw [step_running hr, commit_eq_next, except_bind_eq_ok] at h
  rcases h with ⟨i, hi, he⟩ | ⟨e, he, rfl⟩
  · exact .inl ⟨i, hi, he⟩
  · rcases except_bind_eq_error.1 he with hf | ⟨i, hi, he⟩
    · exact .inr (.inr ⟨e, hf, rfl⟩)
    · exact .inr (.inl ⟨i, e, hi, he, rfl⟩)

end Sys2Proof.Machine
end

