-- ==== Sys2Proof/Laws/PerInstr.lean ====
section
/-! SUPPORT. The per-instruction family EncodedShape: an instruction's encoding has the length R59 gives it and starts with
one of the 16 opcode bytes (R50, R55). -/

namespace Sys2Proof.Laws.EncodedShape

/-- The shape of the encoding of `i`. -/
def Statement (i : Instr) : Prop := (encode i).length = i.length ∧ opcodes.contains ((encode i).headD 0#8) = true

theorem hlt : Statement .hlt := ⟨rfl, rfl⟩
theorem ldi (a b : Byte) : Statement (.ldi a b) := ⟨rfl, rfl⟩
theorem prn (a : Byte) : Statement (.prn a) := ⟨rfl, rfl⟩
theorem add (a b : Byte) : Statement (.add a b) := ⟨rfl, rfl⟩
theorem sub (a b : Byte) : Statement (.sub a b) := ⟨rfl, rfl⟩
theorem mul (a b : Byte) : Statement (.mul a b) := ⟨rfl, rfl⟩
theorem div (a b : Byte) : Statement (.div a b) := ⟨rfl, rfl⟩
theorem mod (a b : Byte) : Statement (.mod a b) := ⟨rfl, rfl⟩
theorem cmp (a b : Byte) : Statement (.cmp a b) := ⟨rfl, rfl⟩
theorem push (a : Byte) : Statement (.push a) := ⟨rfl, rfl⟩
theorem pop (a : Byte) : Statement (.pop a) := ⟨rfl, rfl⟩
theorem call (a : Byte) : Statement (.call a) := ⟨rfl, rfl⟩
theorem ret : Statement .ret := ⟨rfl, rfl⟩
theorem jmp (a : Byte) : Statement (.jmp a) := ⟨rfl, rfl⟩
theorem jeq (a : Byte) : Statement (.jeq a) := ⟨rfl, rfl⟩
theorem jne (a : Byte) : Statement (.jne a) := ⟨rfl, rfl⟩

end Sys2Proof.Laws.EncodedShape
end

