-- ==== Sys2Proof/Tests/Slice0.lean ====
section
/-! SUPPORT. Tests whose expected results come from spec/ (the vectors V<n> of 95_test_vectors.md and the encodings of R55),
the WellFormed smoke tests, and a witness for the hypotheses of every statement. -/

namespace Sys2Proof.Tests

open Sys2Proof Sys2Proof.Machine

/-! ## Helpers -/

/-- The reset state with bytes at `pc` and PC there, as the vectors of 95_test_vectors.md part 2 start. -/
def probe (pc : Nat) (bs : List Byte) : State :=
  { State.reset with pc := BitVec.ofNat 16 pc, mem := Memory.writeBytes [] pc bs }

/-- The next state, if there is one. -/
def nextOf (o : Result) : Option State := match o with | .next t => some t | _ => none

/-- One look at the state one step later. -/
def look {α : Type} (s : State) (f : State → α) : Option α := (nextOf (step s)).map f

/-- The fault one step later, and that nothing but RUN and FAULT has changed. -/
def faultOf (s : State) : Option FaultRecord :=
  (nextOf (step s)).bind fun t => if { t with run := s.run, fault := s.fault } = s then t.fault else none

/-! ## Every constructor's word, written out bit by bit from R55 (opcode byte first) -/

theorem test_decode_hlt : decode 0b00000001#8 0#8 0#8 = .ok .hlt := by decide
theorem test_decode_ldi : decode 0b10000010#8 3#8 200#8 = .ok (.ldi 3#8 200#8) := by decide
theorem test_decode_prn : decode 0b01000111#8 3#8 1#8 = .ok (.prn 3#8) := by decide
theorem test_decode_add : decode 0b10100000#8 3#8 5#8 = .ok (.add 3#8 5#8) := by decide
theorem test_decode_sub : decode 0b10100001#8 3#8 5#8 = .ok (.sub 3#8 5#8) := by decide
theorem test_decode_mul : decode 0b10100010#8 3#8 5#8 = .ok (.mul 3#8 5#8) := by decide
theorem test_decode_div : decode 0b10100011#8 3#8 5#8 = .ok (.div 3#8 5#8) := by decide
theorem test_decode_mod : decode 0b10100100#8 3#8 5#8 = .ok (.mod 3#8 5#8) := by decide
theorem test_decode_cmp : decode 0b10100111#8 3#8 5#8 = .ok (.cmp 3#8 5#8) := by decide
theorem test_decode_push : decode 0b01000101#8 6#8 1#8 = .ok (.push 6#8) := by decide
theorem test_decode_pop : decode 0b01000110#8 6#8 1#8 = .ok (.pop 6#8) := by decide
theorem test_decode_call : decode 0b01010000#8 6#8 1#8 = .ok (.call 6#8) := by decide
theorem test_decode_ret : decode 0b00010001#8 6#8 1#8 = .ok .ret := by decide
theorem test_decode_jmp : decode 0b01010100#8 6#8 1#8 = .ok (.jmp 6#8) := by decide
theorem test_decode_jeq : decode 0b01010101#8 6#8 1#8 = .ok (.jeq 6#8) := by decide
theorem test_decode_jne : decode 0b01010110#8 6#8 1#8 = .ok (.jne 6#8) := by decide

/-- R57: bytes other LS-8 machines define (NOP, LD, ST, AND, SHL, IRET) are rejected by name. -/
theorem test_decode_rejects :
    [0x00#8, 0x83#8, 0x84#8, 0xA8#8, 0xAC#8, 0x13#8].all
      (fun b => decide (decode b 0#8 0#8 = .error (.unknownInstruction b))) = true := by decide

/-- A byte list that ends inside an instruction is rejected by name. -/
theorem test_decode_truncated : decodeBytes [0x82#8, 0#8] = .error .truncated ∧ decodeBytes [] = .error .truncated := by decide

/-! ## WellFormed: an ill-formed term for each check -/

theorem test_wf_refuses_opA :
    [Instr.ldi 8#8 0#8, .prn 8#8, .add 8#8 0#8, .sub 8#8 0#8, .mul 8#8 0#8, .div 8#8 0#8, .mod 8#8 0#8, .cmp 8#8 0#8,
      .push 255#8, .pop 8#8, .call 8#8, .jmp 8#8, .jeq 8#8, .jne 8#8].any Instr.wf = false := by decide

theorem test_wf_refuses_opB :
    [Instr.add 0#8 8#8, .sub 0#8 8#8, .mul 0#8 8#8, .div 0#8 8#8, .mod 0#8 255#8, .cmp 0#8 8#8].any Instr.wf = false := by
  decide

theorem test_wf_accepts : [Instr.hlt, .ret, .ldi 7#8 255#8, .add 7#8 7#8, .push 0#8, .jne 7#8].all Instr.wf = true := by decide

/-! ## Single steps, from the vectors -/

/-- V1. -/
theorem test_hlt_keeps_pc : look (probe 11 [0x01#8]) (fun t => (t.run, t.pc)) = some (.halted, 11#16) := by decide
/-- V3. -/
theorem test_hlt_at_254_faults : faultOf (probe 254 [0x01#8]) = some ⟨.outOfBounds, some 256, 254#16⟩ := by decide
/-- V11. -/
theorem test_ldi_clears_high_byte :
    look ((probe 0 [0x82#8, 0#8, 8#8]).setReg 0 4660#16) (fun t => (t.reg 0, t.pc)) = some (8#16, 3#16) := by decide
/-- V14. -/
theorem test_ldi_bad_index : faultOf (probe 0 [0x82#8, 8#8, 1#8]) = some ⟨.invalidRegister, some 8, 0#16⟩ := by decide
/-- V16. -/
theorem test_prn_unsigned :
    look ((probe 0 [0x47#8, 2#8]).setReg 2 65535#16) (fun t => (t.out, t.pc)) = some ([65535#16], 2#16) := by decide
/-- V21. -/
theorem test_add_wraps :
    look (((probe 0 [0xA0#8, 0#8, 1#8]).setReg 0 65535#16).setReg 1 1#16) (fun t => (t.reg 0, t.pc, t.fl)) =
      some (0#16, 3#16, false) := by decide
/-- V41. -/
theorem test_add_moves_sp : look ((probe 0 [0xA0#8, 7#8, 1#8]).setReg 1 1#16) (·.sp) = some 256#16 := by decide
/-- V23. -/
theorem test_sub_borrows :
    look (((probe 0 [0xA1#8, 0#8, 1#8]).setReg 0 3#16).setReg 1 5#16) (fun t => (t.reg 0, t.reg 1)) = some (65534#16, 5#16) := by
  decide
/-- V27. -/
theorem test_mul_low_half :
    look (((probe 0 [0xA2#8, 0#8, 1#8]).setReg 0 65025#16).setReg 1 255#16) (·.reg 0) = some 767#16 := by decide
/-- V30. -/
theorem test_div_unsigned :
    look (((probe 0 [0xA3#8, 0#8, 1#8]).setReg 0 65535#16).setReg 1 2#16) (·.reg 0) = some 32767#16 := by decide
/-- V33. -/
theorem test_div_by_zero :
    faultOf ((probe 0 [0xA3#8, 0#8, 1#8]).setReg 0 5#16) = some ⟨.divisionByZero, none, 0#16⟩ := by decide
/-- V29. -/
theorem test_mod_remainder :
    look (((probe 0 [0xA4#8, 0#8, 1#8]).setReg 0 17#16).setReg 1 5#16) (·.reg 0) = some 2#16 := by decide
/-- V98. -/
theorem test_mod_index_before_divisor : faultOf (probe 0 [0xA4#8, 0#8, 9#8]) = some ⟨.invalidRegister, some 9, 0#16⟩ := by decide
/-- V46. -/
theorem test_cmp_clears :
    look (((probe 0 [0xA7#8, 1#8, 3#8]).setReg 1 4#16).setFl true) (fun t => (t.fl, t.pc)) = some (false, 3#16) := by decide
/-- V48. -/
theorem test_cmp_full_width : look ((probe 0 [0xA7#8, 0#8, 1#8]).setReg 0 256#16) (·.fl) = some false := by decide
/-- V52. -/
theorem test_push_r7 :
    look (probe 0 [0x45#8, 7#8]) (fun t => (t.sp, t.mem.read 254, t.pc)) = some (254#16, 254#8, 2#16) := by decide
/-- V54. -/
theorem test_push_overflow :
    faultOf (((probe 4 [0x45#8, 0#8]).setSp 0#16).setReg 0 1#16) = some ⟨.outOfBounds, some 65535, 4#16⟩ := by decide
/-- V62. -/
theorem test_pop_r7 : look ((probe 0 ([0x46#8, 7#8] ++ List.replicate 98 0#8 ++ [50#8])).setSp 100#16) (·.sp) = some 51#16 := by
  decide
/-- V61. -/
theorem test_pop_underflow : faultOf ((probe 0 [0x46#8, 0#8]).setSp 256#16) = some ⟨.outOfBounds, some 256, 0#16⟩ := by decide
/-- V86. -/
theorem test_call_r7 :
    look (probe 6 [0x50#8, 7#8]) (fun t => (t.sp, t.mem.read 254, t.pc)) = some (254#16, 8#8, 254#16) := by decide
/-- V88. -/
theorem test_call_at_253 :
    look ((probe 253 [0x50#8, 1#8]).setReg 1 11#16) (fun t => (t.sp, t.mem.read 254, t.pc)) = some (254#16, 255#8, 11#16) := by
  decide
/-- V91. -/
theorem test_ret_unmatched : look (probe 21 [0x11#8]) (fun t => (t.pc, t.sp)) = some (0#16, 256#16) := by decide
/-- V92. -/
theorem test_ret_underflow : faultOf ((probe 21 [0x11#8]).setSp 256#16) = some ⟨.outOfBounds, some 256, 21#16⟩ := by decide
/-- V71. -/
theorem test_jmp_out_of_range :
    look ((probe 24 [0x54#8, 4#8]).setReg 4 300#16) (fun t => (t.pc, t.run)) = some (300#16, .running) := by decide
/-- V76. -/
theorem test_jeq_taken :
    look (((probe 24 [0x55#8, 4#8]).setReg 4 15#16).setFl true) (fun t => (t.pc, t.fl)) = some (15#16, true) := by decide
/-- V79. -/
theorem test_jeq_bad_index_not_taken : faultOf (probe 24 [0x55#8, 8#8]) = some ⟨.invalidRegister, some 8, 24#16⟩ := by decide
/-- V77. -/
theorem test_jne_taken : look ((probe 24 [0x56#8, 4#8]).setReg 4 15#16) (·.pc) = some 15#16 := by decide
/-- V78. -/
theorem test_jne_not_taken : look (((probe 24 [0x56#8, 4#8]).setReg 4 15#16).setFl true) (·.pc) = some 26#16 := by decide

/-- V4, V5, V7: the fetch window before decode, the lowest address, no wrap. -/
theorem test_fetch_bounds :
    faultOf (probe 255 [0x01#8]) = some ⟨.outOfBounds, some 256, 255#16⟩ ∧
    faultOf (probe 255 [0x00#8]) = some ⟨.outOfBounds, some 256, 255#16⟩ ∧
    faultOf (State.reset.setPc 65535#16) = some ⟨.outOfBounds, some 65535, 65535#16⟩ := by decide
/-- V9, V96: decode before any operand check. -/
theorem test_unknown_opcode :
    faultOf (probe 0 [0xA8#8, 9#8, 9#8]) = some ⟨.unknownInstruction, some 168, 0#16⟩ := by decide
/-- V39, V40: `opA` before `opB`, an index before the divisor. -/
theorem test_index_priority :
    faultOf (probe 0 [0xA3#8, 9#8, 8#8]) = some ⟨.invalidRegister, some 9, 0#16⟩ ∧
    faultOf ((probe 0 [0xA3#8, 0#8, 8#8]).setReg 0 5#16) = some ⟨.invalidRegister, some 8, 0#16⟩ := by decide
/-- R19, R81: the host's rendering of OUT; the line feed is the model's choice (log 14). -/
theorem test_render_out : renderOut [17#16, 65535#16] = "17\n65535\n" := by decide
/-- R142, S3: the empty program, and what a trace view shows at the top of memory. -/
theorem test_boot_empty : boot [] = some State.reset := by decide
theorem test_trace_view :
    (traceView (probe 254 [0x01#8, 2#8])).2.1 = [some 0x01#8, some 2#8, none] := by decide
/-- The first instruction after reset is the placed one, short words padded with zero bytes. -/
theorem test_with_fetch_word :
    look (State.reset.withFetchWord 24 0x080382) (·.reg 3) = some 8#16 ∧
    look (State.reset.withFetchWord 8 0xFF47) (·.out) = some [0#16] ∧ decodeTableWord 8 0xFF47 = some (.prn 0#8) := by decide

/-! ## Witnesses: each statement's hypotheses are met together, at the boundaries of each clause -/

theorem witness_DecodeAndEncodeAgree :
    decodeBytes [0x82#8, 3#8, 8#8, 0xFF#8] = .ok (.ldi 3#8 8#8, [0xFF#8]) := by decide

theorem witness_DecodeIsTotalOnTheOpcodeByte :
    0x01#8 ∈ opcodes ∧ 0xA7#8 ∈ opcodes ∧ 0x00#8 ∉ opcodes ∧ 0xA5#8 ∉ opcodes ∧ State.reset.run = .running ∧
    memRead State.reset 0 = .ok 0#8 ∧ memRead State.reset 1 = .ok 0#8 ∧ memRead State.reset 2 = .ok 0#8 := by decide

theorem witness_UnusedWindowBytesAreIgnored :
    fetchInstr (probe 3 [0x47#8, 2#8, 9#8]) = .ok (.prn 2#8) ∧
    ∀ k, k < (Instr.prn 2#8).length →
      Memory.read (probe 3 [0x47#8, 2#8, 0x55#8]).mem (3 + k) = Memory.read (probe 3 [0x47#8, 2#8, 9#8]).mem (3 + k) := by decide

/-- BadIndexFaults and BadIndicesFault, in the statements of all instructions with a register operand. -/
theorem witness_bad_indices : 8 ≤ (8#8 : Byte).toNat ∧ 8 ≤ (255#8 : Byte).toNat ∧ (7#8 : Byte).toNat < 8 := by decide

/-- DivWritesQuotientOrFaults, ModWritesRemainderOrFaults, QuotientAndRemainderReconstruct, both clauses. -/
theorem witness_divisor : (State.reset.setReg 1 1#16).reg 1 ≠ 0#16 ∧ State.reset.reg 1 = 0#16 := by decide

/-- PushStoresLowByteBelowStackPointer and CallPushesReturnAddressAndJumps: SP at 1, 256 completes, at 0, 257 faults. -/
theorem witness_push_bounds :
    pushAddr (State.reset.setSp 1#16) = 0 ∧ pushAddr (State.reset.setSp 256#16) = 255 ∧ State.reset.mem.wf = true ∧
    pushAddr (State.reset.setSp 0#16) = 65535 ∧ pushAddr (State.reset.setSp 257#16) = 256 := by decide

/-- PopLoadsByteAtStackPointer and RetPopsTargetIntoPc: SP at 255 completes, at 256 faults. -/
theorem witness_pop_bounds : popAddr State.reset = 255 ∧ popAddr (State.reset.setSp 256#16) = 256 := by decide

theorem witness_StepRunsTheDecodedInstruction :
    (probe 253 [0x11#8]).run = .running ∧ memRead (probe 253 [0x11#8]) 253 = .ok 0x11#8 ∧
    memRead (probe 253 [0x11#8]) 254 = .ok 0#8 ∧ memRead (probe 253 [0x11#8]) 255 = .ok 0#8 ∧
    decode 0x11#8 0#8 0#8 = .ok .ret := by decide

/-- FetchPastMemoryFaults, both clauses. -/
theorem witness_FetchPastMemoryFaults :
    (State.reset.setPc 256#16).run = .running ∧ 256 ≤ (State.reset.setPc 256#16).pc.toNat ∧
    (State.reset.setPc 254#16).pc.toNat = 254 ∧ (State.reset.setPc 255#16).pc.toNat = 255 := by decide

/-- StepRaisesTheFirstFaultInOrder: a state of each of the eight levels, and one with no fault. -/
theorem witness_StepRaisesTheFirstFaultInOrder :
    firstFault (State.reset.setPc 256#16) = some (.outOfBounds, some 256) ∧
    firstFault (probe 255 [0#8]) = some (.outOfBounds, some 256) ∧
    firstFault (probe 254 [0#8]) = some (.outOfBounds, some 256) ∧
    firstFault (probe 253 [0#8]) = some (.unknownInstruction, some 0) ∧
    firstFault (probe 0 [0xA3#8, 8#8, 9#8]) = some (.invalidRegister, some 8) ∧
    firstFault (probe 0 [0xA3#8, 7#8, 9#8]) = some (.invalidRegister, some 9) ∧
    firstFault (probe 0 [0xA3#8, 7#8, 0#8]) = some (.divisionByZero, none) ∧
    firstFault ((probe 0 [0x45#8, 0#8]).setSp 0#16) = some (.outOfBounds, some 65535) ∧
    firstFault (probe 253 [0x01#8]) = none := by decide

theorem witness_PcPolicyOfACompletedStep :
    fetchInstr (probe 253 [0x82#8]) = .ok (.ldi 0#8 0#8) ∧
    ∃ t, step (probe 253 [0x82#8]) = .next t ∧ t.run ≠ .faulted ∧ t.pc.toNat = 256 := ⟨rfl, _, rfl, by decide, rfl⟩

theorem witness_NextFetchSeesThePushedByte :
    let s := (probe 251 [0x45#8, 0#8]).setSp 254#16
    s.run = .running ∧ s.mem.wf = true ∧ fetchInstr s = .ok (.push (regByte 0)) ∧ s.pc.toNat ≤ 251 ∧
      pushAddr s = s.pc.toNat + 2 := by decide

theorem witness_PlacedInstructionRunsNext :
    (probe 253 []).run = .running ∧ (probe 253 []).pc.toNat ≤ 253 ∧ (probe 253 []).mem.wf = true ∧
    decodeTableWord 24 0x0100A0 = some (.add 0#8 1#8) := by decide

/-- FaultLeavesEverythingButRunAndFault, UnsupportedOperationIsUnreachable, FaultIsLeftOnlyByReset. -/
theorem witness_a_step_that_faults :
    State.reset.fault = none ∧ ∃ t f, step State.reset = .next t ∧ t.run = .faulted ∧ t.fault = some f ∧ t.fault ≠ State.reset.fault ∧
      step t = .fault .engineFaulted :=
  ⟨rfl, _, _, rfl, rfl, rfl, nofun, rfl⟩

/-- IllegalRegisterIndexFaults: the first clause at both operands; the second with legal indices and another fault. -/
theorem witness_IllegalRegisterIndexFaults :
    ((Instr.add 8#8 9#8).regOperands.find? fun x => decide (7 < x.toNat)) = some 8#8 ∧
    ((Instr.add 7#8 9#8).regOperands.find? fun x => decide (7 < x.toNat)) = some 9#8 ∧
    (∀ b ∈ (Instr.div 7#8 0#8).regOperands, b.toNat ≤ 7) ∧
    ∃ t f, exec (.div 7#8 0#8) State.reset = .next t ∧ t.fault = some f := ⟨rfl, rfl, by decide, _, _, rfl, rfl⟩

/-- ZeroDivisorFaults, the second clause. -/
theorem witness_ZeroDivisorFaults :
    State.reset.fault = none ∧
    ∃ t f, exec (.mod 7#8 0#8) State.reset = .next t ∧ t.fault = some f ∧ f.cause = .divisionByZero := ⟨rfl, _, _, rfl, rfl, rfl⟩

/-- UnknownOpcodeFaults, both clauses, at the last address that can fetch. -/
theorem witness_UnknownOpcodeFaults :
    (probe 253 [0x02#8]).run = .running ∧ (probe 253 [0x02#8]).pc.toNat ≤ 253 ∧
    memRead (probe 253 [0x02#8]) 253 = .ok 0x02#8 ∧ 0x02#8 ∉ opcodes ∧ (probe 253 [0x02#8]).fault = none ∧
    ∃ t f, step (probe 253 [0x02#8]) = .next t ∧ t.fault = some f ∧ f.cause = .unknownInstruction :=
  ⟨rfl, by decide, by decide, by decide, rfl, _, _, rfl, rfl, rfl⟩

theorem witness_HaltedIsEnteredOnlyByHlt : ∃ t, step (probe 0 [0x01#8]) = .next t ∧ t.run = .halted := ⟨_, rfl, rfl⟩

/-- FlagIsWrittenByCmpAndReadByJumps: a step that changes FL, and an instruction of the second clause. -/
theorem witness_FlagIsWrittenByCmpAndReadByJumps :
    (∃ t, step (probe 0 [0xA7#8, 1#8, 1#8]) = .next t ∧ t.fl ≠ (probe 0 [0xA7#8, 1#8, 1#8]).fl) ∧
    (∀ a, Instr.ret ≠ .jeq a) ∧ (∀ a, Instr.ret ≠ .jne a) ∧ ∃ t, exec .ret State.reset = .next t :=
  ⟨⟨_, rfl, by decide⟩, nofun, nofun, _, rfl⟩

/-- JumpsSeeTheLastComparison: a CMP, then one step that is no CMP; and such a step from a loaded state. -/
theorem witness_JumpsSeeTheLastComparison :
    (∃ t u, exec (.cmp (regByte 1) (regByte 1)) (probe 0 [0#8, 0#8, 0#8, 0x11#8]) = .next t ∧ stepsWithoutCmp 1 t u) ∧
    ∃ s u, boot [0x11#8] = some s ∧ stepsWithoutCmp 1 s u :=
  ⟨⟨_, _, rfl, nofun, _, rfl, rfl⟩, _, _, rfl, nofun, _, rfl, rfl⟩

/-- OutputOnlyGrowsByPrn, both clauses. -/
theorem witness_OutputOnlyGrowsByPrn :
    ∃ t, step (probe 0 [0x47#8, 7#8]) = .next t ∧ t.out ≠ (probe 0 [0x47#8, 7#8]).out ∧ stepsTo 1 (probe 0 [0x47#8, 7#8]) t :=
  ⟨_, rfl, by decide, _, rfl, rfl⟩

/-- MemoryIsWrittenByPushAndCallOnly: a step that changes memory, and an instruction of the third and of the fourth clause. -/
theorem witness_MemoryIsWrittenByPushAndCallOnly :
    (∃ t, step (probe 0 [0x45#8, 7#8]) = .next t ∧ t.mem ≠ (probe 0 [0x45#8, 7#8]).mem) ∧
    (∀ a, Instr.hlt ≠ .pop a) ∧ Instr.hlt ≠ .ret ∧ (∃ t, exec .hlt State.reset = .next t) ∧
    (∀ a, Instr.push 7#8 ≠ .pop a) ∧ Instr.push 7#8 ≠ .ret ∧ State.reset.mem.wf = true ∧ (probe 0 [0x45#8]).mem.wf = true ∧
    ∃ t u, exec (.push 7#8) State.reset = .next t ∧ exec (.push 7#8) { State.reset with mem := (probe 0 [0x45#8]).mem } = .next u :=
  ⟨⟨_, rfl, by decide⟩, nofun, nofun, ⟨_, rfl⟩, nofun, nofun, rfl, rfl, _, _, rfl, rfl⟩

/-- MemoryReadsWhatWasWritten: canonical, the last address in range and the first out of it. -/
theorem witness_MemoryReadsWhatWasWritten :
    State.reset.mem.wf = true ∧ (∃ t, memWrite State.reset 255 1#8 = .ok t ∧ memRead t 255 = .ok 1#8) ∧
    memRead State.reset 256 = .error ⟨.outOfBounds, some 256⟩ := ⟨rfl, ⟨_, rfl, rfl⟩, rfl⟩

/-- LoadPlacesProgramFromAddressZero: the empty, a short and the longest load. -/
theorem witness_LoadPlacesProgramFromAddressZero :
    (∃ s, boot [] = some s) ∧ (∃ s, boot [0x01#8] = some s ∧ memRead s 0 = .ok 0x01#8 ∧ memRead s 255 = .ok 0#8) ∧
    (List.replicate 256 (0x01#8 : Byte)).length ≤ 256 := ⟨⟨_, rfl⟩, ⟨_, rfl, rfl, rfl⟩, (List.length_replicate ..).le⟩

/-- PopAfterPushRestores (the POP in the state the PUSH left), both clauses. -/
theorem witness_PopAfterPushRestores :
    (0 : Reg) ≠ 7 ∧ State.reset.mem.wf = true ∧ pushAddr State.reset < 256 ∧
    (∃ t, exec (.push (regByte 0)) State.reset = .next t) ∧ ∃ t, exec (.push (regByte 7)) State.reset = .next t :=
  ⟨by decide, rfl, by decide, ⟨_, rfl⟩, _, rfl⟩

/-- RetAfterCallReturns (the RET in the state the CALL left). -/
theorem witness_RetAfterCallReturns :
    (probe 253 []).mem.wf = true ∧ (probe 253 []).pc.toNat ≤ 253 ∧ pushAddr (probe 253 []) < 256 ∧
    ∃ t, exec (.call (regByte 1)) (probe 253 []) = .next t := ⟨rfl, by decide, by decide, _, rfl⟩

theorem witness_SubUndoesAdd : (0 : Reg) ≠ 7 := by decide

/-- StepKeepsInvariant: reset meets the invariant and has a next state. -/
theorem witness_StepKeepsInvariant : State.reset.Inv ∧ ∃ t, step State.reset = .next t :=
  ⟨⟨rfl, by decide, nofun⟩, _, rfl⟩

/-- RunOfAnyProgramReportsItsEnd: a run in each of the three states. -/
theorem witness_RunOfAnyProgramReportsItsEnd :
    (∃ s, boot [] = some s ∧ stepsTo 0 s s ∧ s.run = .running) ∧
    (∃ s t, boot [0x01#8] = some s ∧ stepsTo 1 s t ∧ t.run = .halted) ∧
    ∃ s t, boot [] = some s ∧ stepsTo 1 s t ∧ t.run = .faulted :=
  ⟨⟨_, rfl, rfl, rfl⟩, ⟨_, _, rfl, ⟨_, rfl, rfl⟩, rfl⟩, _, _, rfl, ⟨_, rfl, rfl⟩, rfl⟩

end Sys2Proof.Tests
end

/-! # The state (10_state.md): what a step does to each piece of it, and the invariant -/

section
namespace Sys2Proof.Machine

variable {s t : State} {i : Instr} {e : Raised}

/-! ## Every fault is one that R120 allows -/

/-- The fault of an effect has the info R120 gives its cause. -/
theorem effect_error_ok (h : effect i s = .error e) (pc : Word) : FaultRecord.ok ⟨e.cause, e.info, pc⟩ := by
  rcases effect_error h with ⟨b, -, hb, rfl⟩ | ⟨rfl, -⟩ | ⟨a, -, hlo, hhi, rfl⟩
  · exact ⟨hb, Nat.le_of_lt_succ b.isLt⟩
  · trivial
  · exact ⟨hlo, Nat.le_of_lt_succ hhi⟩

/-- The fault of a fetch or a decode has the info R120 gives its cause. -/
theorem fetchInstr_error_ok (h : fetchInstr s = .error e) (pc : Word) : FaultRecord.ok ⟨e.cause, e.info, pc⟩ := by
  rcases fetchInstr_error h with ⟨-, a, hlo, hhi, rfl⟩ | ⟨-, hop, rfl⟩
  · exact ⟨hlo, Nat.le_of_lt_succ hhi⟩
  · exact ⟨Nat.le_of_lt_succ (BitVec.isLt _), by rwa [BitVec.ofNat_toNat, BitVec.setWidth_eq]⟩

/-- A step completes the fetched instruction, or takes one fault that R120 allows (R70, R128). -/
theorem step_completes_or_faults (h : step s = .next t) :
    (∃ i, fetchInstr s = .ok i ∧ effect i s = .ok t) ∨
    ∃ e, FaultRecord.ok ⟨e.cause, e.info, s.pc⟩ ∧ t = takeFault e s := by
  obtain ⟨-, hok | ⟨i, e, -, he, rfl⟩ | ⟨e, he, rfl⟩⟩ := step_eq_next h
  · exact .inl hok
  · exact .inr ⟨e, effect_error_ok he _, rfl⟩
  · exact .inr ⟨e, fetchInstr_error_ok he _, rfl⟩

/-- A step that does not end in FAULTED completed the instruction it fetched. -/
theorem effect_of_step (h : step s = .next t) (ht : t.run ≠ .faulted) : ∃ i, fetchInstr s = .ok i ∧ effect i s = .ok t := by
  rcases step_completes_or_faults h with hok | ⟨e, -, rfl⟩
  · exact hok
  · exact absurd rfl ht

/-! ## The invariant -/

/-- With no fault taken, the invariant is canonical memory. -/
theorem State.Inv.of_no_fault (hmem : s.mem.wf = true) (hrun : s.run ≠ .faulted) (hfault : s.fault = none) : s.Inv where
  mem_wf := hmem
  fault_iff := by simp [hrun, hfault]
  fault_ok f hf := by simp [hfault] at hf

/-- Outside FAULTED there is no fault record (R18). -/
theorem State.Inv.fault_eq_none (hs : s.Inv) (hrun : s.run ≠ .faulted) : s.fault = none := by
  have := hs.fault_iff
  simpa [hrun] using this

/-- Taking a fault that R120 allows keeps the invariant, charged to the PC the machine still holds (R128). -/
theorem State.Inv.takeFault (hs : s.Inv) (he : FaultRecord.ok ⟨e.cause, e.info, s.pc⟩) : (takeFault e s).Inv where
  mem_wf := hs.mem_wf
  fault_iff := by simp
  fault_ok f hf := by
    cases hf
    exact ⟨he, rfl⟩

/-- A successful effect keeps memory canonical. -/
theorem effect_mem_wf (h : effect i s = .ok t) (hw : s.mem.wf = true) : t.mem.wf = true := by
  rcases effect_mem h with hm | ⟨-, ha, v, hm⟩
  · rwa [hm]
  · rw [hm]
    exact Memory.write_wf ha hw

/-- A successful effect of a running machine does not end in FAULTED. -/
theorem effect_run_ne_faulted (h : effect i s = .ok t) (hr : s.run = .running) : t.run ≠ .faulted := by
  obtain ⟨-, hrun | ⟨-, hrun⟩⟩ := effect_control h <;> simp [hrun, hr]

/-- A loaded machine is the reset machine with the program in memory (R141, R142). -/
theorem boot_eq_some {bs : List Byte} : boot bs = some s ↔
    bs.length ≤ 256 ∧ s = { State.reset with mem := State.reset.mem.writeBytes 0 bs } := by
  unfold boot
  split <;> simp_all [eq_comm]

theorem State.reset_inv : State.reset.Inv := .of_no_fault State.reset_mem_wf (by decide) rfl

theorem boot_inv {bs : List Byte} (h : boot bs = some s) : s.Inv := by
  have hw := boot_wf h
  obtain ⟨-, rfl⟩ := boot_eq_some.1 h
  exact .of_no_fault hw nofun rfl

theorem step_inv (hs : s.Inv) (h : step s = .next t) : t.Inv := by
  have hr := step_next_running h
  rcases step_completes_or_faults h with ⟨i, -, he⟩ | ⟨e, hok, rfl⟩
  · have hnone : s.fault = none := hs.fault_eq_none (by simp [hr])
    exact .of_no_fault (effect_mem_wf he hs.mem_wf) (effect_run_ne_faulted he hr) ((effect_control he).1.trans hnone)
  · exact hs.takeFault hok

/-! ## PC, FL and OUT -/

/-- A sequential advance from a fetched instruction is exact (R15). -/
theorem advance_pc_toNat {n : Nat} (hpc : s.pc.toNat ≤ 253) (hn : n ≤ 3) : (s.advance n).pc.toNat = s.pc.toNat + n := by
  rw [advance_pc, BitVec.toNat_add, BitVec.toNat_ofNat]
  omega

/-- Only CMP writes FL (R16), and only PRN writes OUT, appending its register (R19, R81). -/
theorem effect_fl_out (h : effect i s = .ok t) : (t.fl = s.fl ∨ ∃ opA opB, i = .cmp opA opB) ∧
    (t.out = s.out ∨ ∃ r, i = .prn (regByte r) ∧ t.out = s.out ++ [s.reg r]) := by
  cases i <;> simp only [effect] at h
  case cmp => obtain ⟨a, b, -, -, rfl⟩ := cmpEffect_eq_ok.1 h; exact ⟨.inr ⟨_, _, rfl⟩, .inl rfl⟩
  case prn => obtain ⟨a, rfl, rfl⟩ := prnEffect_eq_ok.1 h; exact ⟨.inl rfl, .inr ⟨a, rfl, rfl⟩⟩
  case hlt => cases h; exact ⟨.inl rfl, .inl rfl⟩
  case ldi => obtain ⟨a, -, rfl⟩ := ldiEffect_eq_ok.1 h; exact ⟨.inl rfl, .inl rfl⟩
  case push => obtain ⟨a, -, -, rfl⟩ := pushEffect_eq_ok.1 h; exact ⟨.inl rfl, .inl rfl⟩
  case pop => obtain ⟨a, -, -, rfl⟩ := popEffect_eq_ok.1 h; exact ⟨.inl rfl, .inl rfl⟩
  case call => obtain ⟨a, -, -, rfl⟩ := callEffect_eq_ok.1 h; exact ⟨.inl rfl, .inl rfl⟩
  case ret => obtain ⟨-, rfl⟩ := retEffect_eq_ok.1 h; exact ⟨.inl rfl, .inl rfl⟩
  case jmp => obtain ⟨a, -, rfl⟩ := jmpEffect_eq_ok.1 h; exact ⟨.inl rfl, .inl rfl⟩
  case jeq => obtain ⟨a, -, rfl⟩ := jumpIf_eq_ok.1 h; split <;> exact ⟨.inl rfl, .inl rfl⟩
  case jne => obtain ⟨a, -, rfl⟩ := jumpIf_eq_ok.1 h; split <;> exact ⟨.inl rfl, .inl rfl⟩
  all_goals obtain ⟨a, b, v, -, -, -, rfl⟩ := aluOp_eq_ok.1 h; exact ⟨.inl rfl, .inl rfl⟩

/-- A step leaves FL, or executed CMP (R16). -/
theorem step_fl (h : step s = .next t) : t.fl = s.fl ∨ ∃ opA opB, fetchInstr s = .ok (.cmp opA opB) := by
  rcases step_completes_or_faults h with ⟨i, hi, he⟩ | ⟨e, -, rfl⟩
  · obtain ⟨hfl | ⟨opA, opB, rfl⟩, -⟩ := effect_fl_out he
    · exact .inl hfl
    · exact .inr ⟨opA, opB, hi⟩
  · exact .inl rfl

/-- A step leaves OUT, or executed PRN and appended its register (R19). -/
theorem step_out (h : step s = .next t) :
    t.out = s.out ∨ ∃ r, fetchInstr s = .ok (.prn (regByte r)) ∧ t.out = s.out ++ [s.reg r] := by
  rcases step_completes_or_faults h with ⟨i, hi, he⟩ | ⟨e, -, rfl⟩
  · obtain ⟨-, ho | ⟨r, rfl, ho⟩⟩ := effect_fl_out he
    · exact .inl ho
    · exact .inr ⟨r, hi, ho⟩
  · exact .inl rfl

/-- Along any run OUT only grows (R19, R23). -/
theorem stepsTo_out_grows {n : Nat} (h : stepsTo n s t) : s.out <+: t.out := by
  induction n generalizing s with
  | zero =>
    obtain rfl : t = s := h
    exact ⟨[], List.append_nil _⟩
  | succ n ih =>
    obtain ⟨u, hu, hrest⟩ := h
    have hstep : s.out <+: u.out := by
      rcases step_out hu with ho | ⟨r, -, ho⟩ <;> simp [ho]
    exact hstep.trans (ih hrest)

/-! ## What an instruction reads: two runs that differ in FL or in memory alone -/

/-- Which fault an effect raises is decided by the registers (R127). -/
theorem effect_error_of_regs_eq (he : effect i s = .error e) (h : t.regs = s.regs) : effect i t = .error e := by
  have hreg (r : Reg) : t.reg r = s.reg r := by simp only [State.reg, h]
  have hpush : pushAddr t = pushAddr s := by simp only [pushAddr, State.sp, hreg]
  have hpop : popAddr t = popAddr s := by simp only [popAddr, State.sp, hreg]
  cases i <;> simp only [effect, ldiEffect_eq_error, prnEffect_eq_error, cmpEffect_eq_error, pushEffect_eq_error,
    popEffect_eq_error, callEffect_eq_error, retEffect_eq_error, jmpEffect_eq_error, jumpIf_eq_error, aluOp_eq_error,
    hreg, hpush, hpop] at he ⊢
  case hlt => cases he
  all_goals exact he

/-- An effect other than JEQ's and JNE's is the same whatever FL held, up to FL itself (R16). -/
theorem effect_withFl (hjeq : ∀ opA, i ≠ .jeq opA) (hjne : ∀ opA, i ≠ .jne opA) (h : effect i s = .ok t) (v : Bool) :
    ∃ w, effect i { s with fl := v } = .ok { t with fl := w } := by
  cases i <;> simp only [effect] at h ⊢
  case cmp => obtain ⟨a, b, rfl, rfl, rfl⟩ := cmpEffect_eq_ok.1 h; exact ⟨_, cmpEffect_eq_ok.2 ⟨a, b, rfl, rfl, rfl⟩⟩
  case hlt => cases h; exact ⟨v, rfl⟩
  case ldi => obtain ⟨a, ha, rfl⟩ := ldiEffect_eq_ok.1 h; exact ⟨v, ldiEffect_eq_ok.2 ⟨a, ha, rfl⟩⟩
  case prn => obtain ⟨a, ha, rfl⟩ := prnEffect_eq_ok.1 h; exact ⟨v, prnEffect_eq_ok.2 ⟨a, ha, rfl⟩⟩
  case push => obtain ⟨a, ha, hp, rfl⟩ := pushEffect_eq_ok.1 h; exact ⟨v, pushEffect_eq_ok.2 ⟨a, ha, hp, rfl⟩⟩
  case pop => obtain ⟨a, ha, hp, rfl⟩ := popEffect_eq_ok.1 h; exact ⟨v, popEffect_eq_ok.2 ⟨a, ha, hp, rfl⟩⟩
  case call => obtain ⟨a, ha, hp, rfl⟩ := callEffect_eq_ok.1 h; exact ⟨v, callEffect_eq_ok.2 ⟨a, ha, hp, rfl⟩⟩
  case ret => obtain ⟨hp, rfl⟩ := retEffect_eq_ok.1 h; exact ⟨v, retEffect_eq_ok.2 ⟨hp, rfl⟩⟩
  case jmp => obtain ⟨a, ha, rfl⟩ := jmpEffect_eq_ok.1 h; exact ⟨v, jmpEffect_eq_ok.2 ⟨a, ha, rfl⟩⟩
  case jeq => exact absurd rfl (hjeq _)
  case jne => exact absurd rfl (hjne _)
  all_goals obtain ⟨a, b, x, ha, hb, hx, rfl⟩ := aluOp_eq_ok.1 h; exact ⟨v, aluOp_eq_ok.2 ⟨a, b, x, ha, hb, hx, rfl⟩⟩

/-- The same for the instruction with its fault, if it takes one. -/
theorem exec_withFl (hjeq : ∀ opA, i ≠ .jeq opA) (hjne : ∀ opA, i ≠ .jne opA) (h : exec i s = .next t) (v : Bool) :
    ∃ w, exec i { s with fl := v } = .next { t with fl := w } := by
  rcases exec_eq_next.1 h with he | ⟨e, he, rfl⟩
  · obtain ⟨w, hw⟩ := effect_withFl hjeq hjne he v
    exact ⟨w, exec_eq_next.2 (.inl hw)⟩
  · exact ⟨v, exec_eq_next.2 (.inr ⟨e, effect_error_of_regs_eq he rfl, rfl⟩)⟩

/-- The memory after one optional store: of a byte in a cell, or of nothing. -/
def Memory.store (m : Memory) : Option (Nat × Byte) → Memory
  | none => m
  | some (a, v) => m.write a v

/-- One store in two canonical memories: a cell reads the same after both, or is unchanged in both. -/
theorem Memory.read_store {m n : Memory} (hm : m.wf = true) (hn : n.wf = true) (w : Option (Nat × Byte)) (a : Nat) :
    (n.store w).read a = (m.store w).read a ∨ (m.store w).read a = m.read a ∧ (n.store w).read a = n.read a := by
  match w with
  | none => exact .inr ⟨rfl, rfl⟩
  | some (x, v) =>
    by_cases hax : a = x
    · subst hax
      exact .inl ((Memory.read_write_same hn).trans (Memory.read_write_same hm).symm)
    · exact .inr ⟨Memory.read_write_other hax, Memory.read_write_other hax⟩

/-- An effect other than POP's and RET's does not read memory: its one store, if any, and all else it does are the same
whatever memory held (R20). -/
theorem effect_withMem (hpop : ∀ opA, i ≠ .pop opA) (hret : i ≠ .ret) (h : effect i s = .ok t) :
    ∃ w, ∀ m, effect i { s with mem := m } = .ok { t with mem := m.store w } := by
  cases i <;> simp only [effect] at h ⊢
  case push =>
    obtain ⟨a, ha, hp, rfl⟩ := pushEffect_eq_ok.1 h
    exact ⟨some (pushAddr s, lowByte ((preDecrementSp s).reg a)), fun m => pushEffect_eq_ok.2 ⟨a, ha, hp, rfl⟩⟩
  case call =>
    obtain ⟨a, ha, hp, rfl⟩ := callEffect_eq_ok.1 h
    exact ⟨some (pushAddr s, lowByte (returnAddress s)), fun m => callEffect_eq_ok.2 ⟨a, ha, hp, rfl⟩⟩
  case pop => exact absurd rfl (hpop _)
  case ret => exact absurd rfl hret
  all_goals refine ⟨none, fun m => ?_⟩
  case hlt => cases h; rfl
  case ldi => obtain ⟨a, ha, rfl⟩ := ldiEffect_eq_ok.1 h; exact ldiEffect_eq_ok.2 ⟨a, ha, rfl⟩
  case prn => obtain ⟨a, ha, rfl⟩ := prnEffect_eq_ok.1 h; exact prnEffect_eq_ok.2 ⟨a, ha, rfl⟩
  case cmp => obtain ⟨a, b, ha, hb, rfl⟩ := cmpEffect_eq_ok.1 h; exact cmpEffect_eq_ok.2 ⟨a, b, ha, hb, rfl⟩
  case jmp => obtain ⟨a, ha, rfl⟩ := jmpEffect_eq_ok.1 h; exact jmpEffect_eq_ok.2 ⟨a, ha, rfl⟩
  case jeq => obtain ⟨a, ha, rfl⟩ := jumpIf_eq_ok.1 h; exact jumpIf_eq_ok.2 ⟨a, ha, by split <;> rfl⟩
  case jne => obtain ⟨a, ha, rfl⟩ := jumpIf_eq_ok.1 h; exact jumpIf_eq_ok.2 ⟨a, ha, by split <;> rfl⟩
  all_goals obtain ⟨a, b, x, ha, hb, hx, rfl⟩ := aluOp_eq_ok.1 h; exact aluOp_eq_ok.2 ⟨a, b, x, ha, hb, hx, rfl⟩

/-- The same for the instruction with its fault, if it takes one. -/
theorem exec_withMem (hpop : ∀ opA, i ≠ .pop opA) (hret : i ≠ .ret) (h : exec i s = .next t) :
    ∃ w, ∀ m, exec i { s with mem := m } = .next { t with mem := m.store w } := by
  rcases exec_eq_next.1 h with he | ⟨e, he, rfl⟩
  · obtain ⟨w, hw⟩ := effect_withMem hpop hret he
    exact ⟨w, fun m => exec_eq_next.2 (.inl (hw m))⟩
  · exact ⟨none, fun m => exec_eq_next.2 (.inr ⟨e, effect_error_of_regs_eq he rfl, rfl⟩)⟩

end Sys2Proof.Machine
end

section
namespace Sys2Proof.Machine

/-- Settles O41, from the register laws. -/
theorem registerReadsWhatWasWritten : Obligations.RegisterReadsWhatWasWritten := by
  intro s r v
  have hother : SameRegsBut s (s.setReg r v) [r] := fun q hq => reg_setReg_other s r q v (by simpa using hq)
  exact ⟨reg_setReg_same s r v, hother, rfl, rfl⟩

/-- Settles O42, each register by evaluation and every cell because nothing is listed. -/
theorem resetValues : Obligations.ResetValues := by
  have hregs : ∀ r : Reg, r ≠ 7 → State.reset.reg r = 0#16 := by decide
  have hcells (a : Nat) (ha : a ≤ 255) : memRead State.reset a = .ok 0#8 := memRead_ok (by omega)
  exact ⟨hregs, rfl, rfl, rfl, rfl, rfl, rfl, hcells, fun _ => rfl⟩

/-- Settles O48: reset and a load leave canonical memory and no fault. -/
theorem invariantHoldsAtResetAndLoad : Obligations.InvariantHoldsAtResetAndLoad :=
  ⟨State.reset_inv, fun _ _ => boot_inv⟩

/-- Settles O49: a completed step stores at most one byte and takes no fault, and a fault is one R120 allows. -/
theorem stepKeepsInvariant : Obligations.StepKeepsInvariant := fun _ _ => step_inv

/-- Settles O26: the step completed its effect, and a fetched instruction has PC at most 253. -/
theorem pcPolicyOfACompletedStep : Obligations.PcPolicyOfACompletedStep := by
  intro s t i hi hs ht
  have hpc : s.pc.toNat ≤ 253 := (fetchInstr_eq_ok.1 hi).1
  obtain ⟨j, hj, h⟩ := effect_of_step hs ht
  obtain rfl : i = j := Except.ok.inj (hi.symm.trans hj)
  cases i <;> simp only [effect] at h ⊢
  case hlt => cases h; rfl
  case jmp => obtain ⟨r, rfl, rfl⟩ := jmpEffect_eq_ok.1 h; exact ⟨r, rfl, rfl⟩
  case jeq =>
    obtain ⟨r, rfl, rfl⟩ := jumpIf_eq_ok.1 h
    refine ⟨r, rfl, ?_⟩
    cases s.fl
    · exact advance_pc_toNat hpc (by omega)
    · rfl
  case jne =>
    obtain ⟨r, rfl, rfl⟩ := jumpIf_eq_ok.1 h
    refine ⟨r, rfl, ?_⟩
    cases s.fl
    · rfl
    · exact advance_pc_toNat hpc (by omega)
  case call =>
    obtain ⟨r, rfl, -, rfl⟩ := callEffect_eq_ok.1 h
    exact ⟨r, rfl, preDecrementSp_reg s r⟩
  case ret =>
    obtain ⟨-, rfl⟩ := retEffect_eq_ok.1 h
    rw [setPc_pc, zext16_toNat]
    exact Nat.le_of_lt_succ (BitVec.isLt _)
  case prn => obtain ⟨a, -, rfl⟩ := prnEffect_eq_ok.1 h; exact advance_pc_toNat hpc (by omega)
  case push => obtain ⟨a, -, -, rfl⟩ := pushEffect_eq_ok.1 h; exact advance_pc_toNat hpc (by omega)
  case pop => obtain ⟨a, -, -, rfl⟩ := popEffect_eq_ok.1 h; exact advance_pc_toNat hpc (by omega)
  case ldi => obtain ⟨a, -, rfl⟩ := ldiEffect_eq_ok.1 h; exact advance_pc_toNat hpc (by omega)
  case cmp => obtain ⟨a, b, -, -, rfl⟩ := cmpEffect_eq_ok.1 h; exact advance_pc_toNat hpc (by omega)
  all_goals obtain ⟨a, b, v, -, -, -, rfl⟩ := aluOp_eq_ok.1 h; exact advance_pc_toNat hpc (by omega)

/-- Settles O35: a step starts in RUNNING, and HLT's is the only effect that leaves it. -/
theorem haltedIsEnteredOnlyByHlt : Obligations.HaltedIsEnteredOnlyByHlt := by
  intro s t h ht
  obtain ⟨i, hi, he⟩ := effect_of_step h (by simp [ht])
  obtain ⟨-, hrun | ⟨rfl, -⟩⟩ := effect_control he
  · rw [ht, step_next_running h] at hrun
    cases hrun
  · cases he
    exact ⟨hi, rfl⟩

/-- Settles O36: the reads by comparing two runs that differ in FL alone, and CMP computes FL from registers alone. -/
theorem flagIsWrittenByCmpAndReadByJumps : Obligations.FlagIsWrittenByCmpAndReadByJumps := by
  refine ⟨fun s t h hne => ?_, fun i s t v hjeq hjne h => ?_, fun a b s v => ?_⟩
  · exact (step_fl h).resolve_left hne
  · obtain ⟨w, hw⟩ := exec_withFl hjeq hjne h v
    exact ⟨_, hw, rfl⟩
  · have hcmp (u : State) : exec (.cmp (regByte a) (regByte b)) u =
        .next ((u.setFl (equalFlag (u.reg a) (u.reg b))).advance 3) :=
      exec_eq_next.2 (.inl (cmpEffect_eq_ok.2 ⟨a, b, rfl, rfl, rfl⟩))
    exact (hcmp _).trans (hcmp s).symm

/-- Settles O38: the step's clause, then induction on the number of steps. -/
theorem outputOnlyGrowsByPrn : Obligations.OutputOnlyGrowsByPrn :=
  ⟨fun _ _ h hne => (step_out h).resolve_left hne, fun _ _ _ => stepsTo_out_grows⟩

/-- Settles O39: outside POP and RET an instruction's store is decided without reading memory. -/
theorem memoryIsWrittenByPushAndCallOnly : Obligations.MemoryIsWrittenByPushAndCallOnly := by
  refine ⟨fun s a => ?_, fun s t h hne => ?_, fun i s t m hpop hret h => ?_, fun i s t u m hpop hret hs hm ht hu a => ?_⟩
  · simp only [memRead_eq_ok, exists_and_left, exists_eq', and_true]
    exact Nat.lt_succ_iff
  · rcases step_completes_or_faults h with ⟨i, hi, he⟩ | ⟨e, -, rfl⟩
    · obtain ⟨⟨opA, rfl | rfl⟩, -⟩ := (effect_mem he).resolve_left hne
      · exact ⟨opA, .inl hi⟩
      · exact ⟨opA, .inr hi⟩
    · exact absurd rfl hne
  · obtain ⟨w, hw⟩ := exec_withMem hpop hret h
    exact ⟨_, hw m, rfl⟩
  · obtain ⟨w, hw⟩ := exec_withMem hpop hret ht
    obtain rfl : { t with mem := m.store w } = u := Host.Outcome.next.inj ((hw m).symm.trans hu)
    have htmem : t.mem = s.mem.store w :=
      congrArg State.mem (Host.Outcome.next.inj (ht.symm.trans (hw s.mem)))
    by_cases ha : a < 256
    · simp only [memRead_ok ha, Except.ok.injEq, htmem]
      exact Memory.read_store hs hm w a
    · have hout : 255 < a := by omega
      exact .inl ((memRead_error hout).trans (memRead_error hout).symm)

end Sys2Proof.Machine
end

/-! # Memory (20_memory.md): what a store leaves in memory, and the fetch that follows it -/

section
namespace Sys2Proof.Machine

variable {s t : State} {i : Instr} {a : Nat} {v : Byte}

/-- The stored cell reads as written (R32). -/
theorem memRead_write_same (hw : s.mem.wf = true) (ha : a < 256) (h : t.mem = s.mem.write a v) : memRead t a = .ok v := by
  rw [memRead_ok ha, h, Memory.read_write_same hw]

/-- A running machine completes the instruction it fetched when its effect succeeds (R70). -/
theorem step_of_effect (hrun : s.run = .running) (hi : fetchInstr s = .ok i) (he : effect i s = .ok t) :
    step s = .next t := by
  rw [step_running hrun, hi, except_bind_ok, he, commit_ok]

/-- The value a PUSH stores the low byte of: for R7 the decremented SP, which is the address of the store (R101). -/
theorem preDecrementSp_reg_toNat (s : State) (r : Reg) :
    ((preDecrementSp s).reg r).toNat = if r = 7 then pushAddr s else (s.reg r).toNat := by
  rw [preDecrementSp_reg]
  split <;> rfl

/-- What a PUSH with SP in range leaves in PC and memory (R101). -/
theorem pushEffect_ok (h : pushAddr s < 256) (r : Reg) : ∃ t, pushEffect (regByte r) s = .ok t ∧
    t.pc = (s.advance 2).pc ∧ t.mem = s.mem.write (pushAddr s) (lowByte ((preDecrementSp s).reg r)) :=
  ⟨_, pushEffect_eq_ok.2 ⟨r, rfl, h, rfl⟩, rfl, rfl⟩

/-- The fetch stage is its three reads (R71). -/
theorem fetch_of_memRead {ir opA opB : Byte} (h0 : memRead s s.pc.toNat = .ok ir)
    (h1 : memRead s (s.pc.toNat + 1) = .ok opA) (h2 : memRead s (s.pc.toNat + 2) = .ok opB) :
    fetch s = .ok (ir, opA, opB) := by
  simp only [fetch, h0, h1, h2, except_bind_ok, except_pure]

/-- Settles O40, from the laws of one store in canonical memory. -/
theorem memoryReadsWhatWasWritten : Obligations.MemoryReadsWhatWasWritten := by
  intro s a v hw
  refine ⟨fun ha => ?_, fun ha => ⟨memRead_error ha, memWrite_error ha⟩⟩
  have hin : a < 256 := by omega
  exact ⟨⟨_, memRead_ok hin⟩, _, memWrite_ok hin, memRead_write_same hw hin rfl,
    fun x hx => memRead_write_other rfl hx, rfl⟩

/-- Settles O27: the PUSH completes with PC on the cell it stored, and the two cells above are as before. -/
theorem nextFetchSeesThePushedByte : Obligations.NextFetchSeesThePushedByte := by
  intro s a hrun hw hi hpc haddr
  have hin : pushAddr s < 256 := by omega
  obtain ⟨t, he, htpc, htmem⟩ := pushEffect_ok hin a
  have hnext : t.pc.toNat = s.pc.toNat + 2 := by
    rw [htpc]
    exact advance_pc_toNat (by omega) (by omega)
  have hopA : memRead s (s.pc.toNat + 3) = .ok (s.mem.read (s.pc.toNat + 3)) := memRead_ok (by omega)
  have hopB : memRead s (s.pc.toNat + 4) = .ok (s.mem.read (s.pc.toNat + 4)) := memRead_ok (by omega)
  have hfetch : fetch t =
      .ok (lowByte ((preDecrementSp s).reg a), s.mem.read (s.pc.toNat + 3), s.mem.read (s.pc.toNat + 4)) := by
    refine fetch_of_memRead ?_ ?_ ?_ <;> rw [hnext]
    · rw [← haddr]
      exact memRead_write_same hw hin htmem
    · exact (memRead_write_other htmem (by omega)).trans hopA
    · exact (memRead_write_other htmem (by omega)).trans hopB
  refine ⟨t, _, _, _, step_of_effect hrun hi he, hnext, hfetch, ?_, hopA, hopB⟩
  rw [lowByte_toNat, preDecrementSp_reg_toNat]

end Sys2Proof.Machine
end

/-! # Encoding (30_encoding.md): the bytes that decode to an instruction are those of its encoding -/

section
namespace Sys2Proof

variable {i : Instr} {ir : Byte} {bs rest : List Byte}

/-! ## The decoder and the encoder -/

/-- The length with the opcode byte last in the sum, as `List.take` and `List.drop` of a cons count it (R59). -/
theorem Instr.length_eq_succ (i : Instr) : i.length = i.operands + 1 := Nat.add_comm 1 i.operands

/-- The fetch window holds an instruction's operands (R50). -/
theorem Instr.operands_le_two (i : Instr) : i.operands ≤ 2 := by
  cases i <;> simp [Instr.operands]

/-- An encoding is as long as R59 says. -/
@[simp] theorem encode_length (i : Instr) : (encode i).length = i.length := by cases i <;> rfl

/-- Every encoding has an opcode byte (R50). -/
theorem encode_ne_nil (i : Instr) : encode i ≠ [] := by cases i <;> exact List.cons_ne_nil _ _

/-- A window decodes to `i` exactly when it starts with the encoding of `i` (R50, R55). -/
theorem decode_eq_ok_iff {opA opB : Byte} : decode ir opA opB = .ok i ↔ encode i = [ir, opA, opB].take i.length := by
  refine ⟨decode_eq_ok, fun h => ?_⟩
  cases i <;> cases h <;> rfl

/-! ## Byte lists -/

/-- The two operand bytes that `decodeBytes` reads are the list's own as far as the list reaches. -/
theorem take_getD_pair {n : Nat} (hn : n ≤ 2) (hle : n ≤ bs.length) :
    [bs.getD 0 0#8, bs.getD 1 0#8].take n = bs.take n := by
  match bs, n with
  | _, 0 => rfl
  | _ :: _, 1 => rfl
  | _ :: _ :: _, 2 => rfl

/-- When a list holds the operands of `i`, its first bytes decode to `i` exactly when they are the encoding of `i`. -/
theorem decode_getD_eq_ok_iff (hle : i.operands ≤ bs.length) :
    decode ir (bs.getD 0 0#8) (bs.getD 1 0#8) = .ok i ↔ encode i = (ir :: bs).take i.length := by
  rw [decode_eq_ok_iff, i.length_eq_succ, List.take_succ_cons, List.take_succ_cons, take_getD_pair i.operands_le_two hle]

/-- What `decodeBytes` answers on a list with an opcode byte: it holds a whole encoding, and the rest is what follows. -/
theorem decodeBytes_cons_eq_ok_iff : decodeBytes (ir :: bs) = .ok (i, rest) ↔
    i.operands ≤ bs.length ∧ encode i = (ir :: bs).take i.length ∧ rest = (ir :: bs).drop i.length := by
  constructor
  · intro h
    simp only [decodeBytes] at h
    split at h
    case h_1 => cases h
    case h_2 j hdec =>
      split at h
      case isTrue hle =>
        cases h
        exact ⟨hle, (decode_getD_eq_ok_iff hle).1 hdec, by rw [i.length_eq_succ, List.drop_succ_cons]⟩
      case isFalse => cases h
  · rintro ⟨hle, henc, rfl⟩
    rw [decodeBytes, (decode_getD_eq_ok_iff hle).2 henc, i.length_eq_succ, List.drop_succ_cons]
    exact if_pos hle

/-- Settles O1: cutting a list at the length of `i` leaves the encoding of `i` and the rest. -/
theorem decodeAndEncodeAgree : Obligations.DecodeAndEncodeAgree := by
  intro bs i rest
  have hlen := encode_length i
  cases bs with
  | nil => exact ⟨nofun, fun h => absurd (List.append_eq_nil_iff.1 h.symm).1 (encode_ne_nil i)⟩
  | cons ir bs =>
    rw [decodeBytes_cons_eq_ok_iff]
    constructor
    · rintro ⟨-, henc, rfl⟩
      rw [henc, List.take_append_drop]
    · intro h
      have hsum : bs.length + 1 = i.operands + 1 + rest.length := by
        rw [← i.length_eq_succ, ← hlen, ← List.length_append, ← h, List.length_cons]
      rw [h, List.take_left' hlen, List.drop_left' hlen]
      exact ⟨by omega, rfl, rfl⟩

/-- Settles O3, by evaluating the decoder on each word. -/
theorem tableWordsDecode : Obligations.TableWordsDecode := ⟨rfl, rfl, rfl, rfl, rfl, rfl, rfl, rfl, rfl⟩

end Sys2Proof

namespace Sys2Proof.Machine

/-- A machine fetches `i` exactly when its window is in memory and starts with the encoding of `i` (R71, R72). -/
theorem fetchInstr_eq_ok_iff_encode {s : State} {i : Instr} : fetchInstr s = .ok i ↔
    s.pc.toNat ≤ 253 ∧ encode i = ((List.range 3).take i.length).map fun k => s.mem.read (s.pc.toNat + k) := by
  rw [fetchInstr_eq_ok, decode_eq_ok_iff, List.map_take]
  rfl

/-- Settles O4: the encoding is read from the instruction's own bytes of the window. -/
theorem unusedWindowBytesAreIgnored : Obligations.UnusedWindowBytesAreIgnored := by
  intro s m i hi hagree
  obtain ⟨hpc, henc⟩ := fetchInstr_eq_ok_iff_encode.1 hi
  refine fetchInstr_eq_ok_iff_encode.2 ⟨hpc, henc.trans (List.map_congr_left fun k hk => ?_)⟩
  rw [List.take_range, List.mem_range, lt_min_iff] at hk
  exact (hagree k hk.1).symm

end Sys2Proof.Machine
end

/-! # The engine loop (40_engine_loop.md): when there is a step, and which instruction or fetch fault it is -/

section
namespace Sys2Proof.Machine

variable {s : State} {i : Instr} {e : Raised} {ir opA opB : Byte}

/-! ## What a step answers in each run state -/

/-- A commit answers a next state, whether the instruction completes or faults (R70, R128). -/
theorem commit_answers_next (s : State) (r : Except Raised State) : ∃ t, commit s r = .next t := by
  cases r with
  | ok t => exact ⟨t, commit_ok s t⟩
  | error e => exact ⟨takeFault e s, commit_error s e⟩

/-- The step's answer by run state: a next state in RUNNING, the named Host fault in each terminal one (R70, R75). -/
theorem step_answer_by_run (s : State) :
    (s.run = .running ∧ ∃ t, step s = .next t) ∨ (s.run = .halted ∧ step s = .fault .engineHalted) ∨
    (s.run = .faulted ∧ step s = .fault .engineFaulted) := by
  cases hrun : s.run with
  | running => exact .inl ⟨rfl, step_running hrun ▸ commit_answers_next s _⟩
  | halted => exact .inr (.inl ⟨rfl, by simp only [step, hrun, noStep]⟩)
  | faulted => exact .inr (.inr ⟨rfl, by simp only [step, hrun, noStep]⟩)

/-! ## What a step does with its fetch window -/

/-- Three bytes in memory are fetched, and the decoder's answer on them is the fetched instruction or its fault (R71, R72). -/
theorem fetchInstr_of_memRead (h0 : memRead s s.pc.toNat = .ok ir) (h1 : memRead s (s.pc.toNat + 1) = .ok opA)
    (h2 : memRead s (s.pc.toNat + 2) = .ok opB) : fetchInstr s = decodeWindow ir opA opB := by
  rw [fetchInstr, fetch_of_memRead h0 h1 h2, except_bind_ok]

/-- The instruction of a window is encoded with the window's opcode byte (R55). -/
theorem head?_encode_of_decode (h : decode ir opA opB = .ok i) : (encode i).head? = some ir := by
  rw [decode_eq_ok h, i.length_eq_succ, List.take_succ_cons, List.head?_cons]

/-- A decoded window is the instruction. -/
theorem decodeWindow_of_decode_ok (h : decode ir opA opB = .ok i) : decodeWindow ir opA opB = .ok i := by
  rw [decodeWindow, h]

/-- A byte that is no opcode is the fault UnknownInstruction of that byte (R124). -/
theorem decodeWindow_of_not_mem (h : ir ∉ opcodes) (opA opB : Byte) :
    decodeWindow ir opA opB = .error (unknownInstruction ir) := by
  rw [decodeWindow, decode_of_not_mem h]

/-- A running machine executes the instruction it fetched (R70). -/
theorem step_eq_exec (hrun : s.run = .running) (hi : fetchInstr s = .ok i) : step s = exec i s := by
  rw [step_running hrun, hi, except_bind_ok, exec_eq_commit]

/-- A running machine takes the fault of its fetch or decode stage (R70, R128). -/
theorem step_of_fetchInstr_error (hrun : s.run = .running) (he : fetchInstr s = .error e) :
    step s = .next (faultedAt s e.cause e.info) := by
  rw [step_running hrun, he, except_bind_error, commit_error, takeFault_eq]

/-- A fault of the fetch stage stands before any of decode (R70, R127). -/
theorem fetchInstr_of_fetch_error (h : fetch s = .error e) : fetchInstr s = .error e := by
  rw [fetchInstr, h, except_bind_error]

/-! ## How many bytes are no opcode -/

/-- The decoder rejects exactly the bytes outside the table of R55 (R57). -/
theorem isNone_decode (ir opA opB : Byte) : (decode ir opA opB).toOption.isNone = !decide (ir ∈ opcodes) := by
  rcases decode_cases ir opA opB with ⟨i, hdec, -, hmem⟩ | ⟨hdec, hmem⟩
  · simp [hdec, hmem, Except.toOption]
  · simp [hdec, hmem, Except.toOption]

/-- The byte values that name an opcode are the values of the table of R55. -/
theorem filter_mem_opcodes_perm :
    ((List.range 256).filter fun n => decide (BitVec.ofNat 8 n ∈ opcodes)).Perm (opcodes.map BitVec.toNat) := by
  have hnodup : (opcodes.map BitVec.toNat).Nodup := by decide
  refine (List.perm_ext_iff_of_nodup (List.nodup_range.filter _) hnodup).2 fun n => ?_
  rw [List.mem_filter, List.mem_range, decide_eq_true_iff, List.mem_map]
  constructor
  · rintro ⟨hlt, hmem⟩
    exact ⟨_, hmem, Nat.mod_eq_of_lt hlt⟩
  · rintro ⟨b, hmem, rfl⟩
    exact ⟨b.isLt, by rwa [BitVec.ofNat_toNat, BitVec.setWidth_eq]⟩

/-- R55 uses 16 of the 256 byte values, so 240 are illegal (R57). -/
theorem length_filter_not_mem_opcodes :
    ((List.range 256).filter fun n => !decide (BitVec.ofNat 8 n ∈ opcodes)).length = 240 := by
  have hlegal : ((List.range 256).filter fun n => decide (BitVec.ofNat 8 n ∈ opcodes)).length = 16 :=
    filter_mem_opcodes_perm.length_eq
  have hall := List.length_eq_length_filter_add (l := List.range 256) fun n => decide (BitVec.ofNat 8 n ∈ opcodes)
  rw [List.length_range, hlegal] at hall
  omega

/-! ## The statements -/

/-- Settles O2: the two answers of the decoder, the step's fault on a rejected byte, and the count outside R55's table. -/
theorem decodeIsTotalOnTheOpcodeByte : Obligations.DecodeIsTotalOnTheOpcodeByte := by
  refine ⟨fun ir opA opB hmem => ?_, fun ir opA opB hmem => ⟨decode_of_not_mem hmem opA opB, fun s hrun h0 h1 h2 => ?_⟩, ?_⟩
  · obtain ⟨i, hdec, -⟩ := decode_of_mem hmem opA opB
    exact ⟨i, hdec, head?_encode_of_decode hdec⟩
  · exact step_of_fetchInstr_error hrun ((fetchInstr_of_memRead h0 h1 h2).trans (decodeWindow_of_not_mem hmem opA opB))
  · simp only [isNone_decode]
    exact length_filter_not_mem_opcodes

/-- Settles O24, from the step's answer in each run state. -/
theorem runningMachineAlwaysSteps : Obligations.RunningMachineAlwaysSteps := by
  refine ⟨fun s hrun => step_running hrun ▸ commit_answers_next s _, fun s r => ?_⟩
  rcases step_answer_by_run s with ⟨-, t, h⟩ | ⟨-, h⟩ | ⟨-, h⟩ <;> rw [h] <;> nofun

/-- Settles O5: HLT's effect is one write of RUN, which always commits. -/
theorem hltHaltsAndKeepsEverything : Obligations.HltHaltsAndKeepsEverything := by
  refine ⟨fun _ _ => rfl, fun s => ?_⟩
  have hexec : exec .hlt s = .next (s.setRun .halted) := exec_eq_next.2 (.inl rfl)
  exact ⟨_, hexec, rfl, rfl, rfl, rfl, rfl, fun _ _ => rfl, fun _ _ => rfl⟩

/-- Settles O21: the window is what is fetched, and it decodes to `i`. -/
theorem stepRunsTheDecodedInstruction : Obligations.StepRunsTheDecodedInstruction :=
  fun _ _ _ _ _ hrun h0 h1 h2 hdec =>
    step_eq_exec hrun ((fetchInstr_of_memRead h0 h1 h2).trans (decodeWindow_of_decode_ok hdec))

/-- Settles O22: the fetch stage reports PC itself from 256 up, and 256 from 254 and 255. -/
theorem fetchPastMemoryFaults : Obligations.FetchPastMemoryFaults := by
  intro s hrun
  constructor
  · intro hpc
    have hfetch : fetch s = .error (outOfBounds s.pc.toNat) := by rw [fetch_eq, if_pos (by omega)]
    exact step_of_fetchInstr_error hrun (fetchInstr_of_fetch_error hfetch)
  · intro hpc
    have hfetch : fetch s = .error (outOfBounds 256) := by rw [fetch_eq, if_neg (by omega), if_pos (by omega)]
    exact step_of_fetchInstr_error hrun (fetchInstr_of_fetch_error hfetch)

/-- Settles O25: the three answers of the step differ, so each names its run state. -/
theorem terminalStatesHaveNoStep : Obligations.TerminalStatesHaveNoStep := by
  intro s
  rcases step_answer_by_run s with ⟨hrun, t, h⟩ | ⟨hrun, h⟩ | ⟨hrun, h⟩ <;> simp [hrun, h]

end Sys2Proof.Machine
end

/-! # Load and output (41_load_and_output.md): LDI and PRN -/

section
namespace Sys2Proof.Machine

/-! ## An illegal register index -/

/-- A one-operand form whose effect passes on the fault of its index check ends, on a bad index, in the state R128
describes (R13). -/
theorem badIndexFaults_of_effect {mk : Byte → Instr}
    (h : ∀ {opA : Byte} {s : State} {e : Raised}, regidx opA = .error e → effect (mk opA) s = .error e) :
    BadIndexFaults mk := by
  intro opA s hbad
  rw [exec_eq_commit, h (regidx_error hbad), commit_error, takeFault_eq, invalidRegister]

/-! ## The statements -/

/-- Settles O6: LDI's effect is one register write and an advance of PC, and only its index check can raise. -/
theorem ldiLoadsZeroExtendedImmediate : Obligations.LdiLoadsZeroExtendedImmediate := by
  refine ⟨fun _ _ => rfl, fun a imm s => ?_, fun _ => badIndexFaults_of_effect ldiEffect_eq_error.2⟩
  have hexec : exec (.ldi (regByte a) imm) s = .next ((s.setReg a (zext16 imm)).advance 3) :=
    exec_eq_next.2 (.inl (ldiEffect_eq_ok.2 ⟨a, rfl, rfl⟩))
  refine ⟨_, hexec, ?_, rfl, fun r hr => ?_, fun _ _ => rfl, ⟨rfl, rfl⟩, rfl, rfl⟩
  · rw [advance_reg, reg_setReg_same, zext16_toNat]
  · rw [advance_reg, reg_setReg_other _ _ _ _ (List.ne_of_not_mem_cons hr)]

/-- Settles O7: PRN's effect is one append to OUT and an advance of PC, and only its index check can raise. -/
theorem prnAppendsRegisterToOutput : Obligations.PrnAppendsRegisterToOutput := by
  refine ⟨fun _ _ => rfl, fun a s => ?_, badIndexFaults_of_effect prnEffect_eq_error.2⟩
  have hexec : exec (.prn (regByte a)) s = .next ((s.emit (s.reg a)).advance 2) :=
    exec_eq_next.2 (.inl (prnEffect_eq_ok.2 ⟨a, rfl, rfl⟩))
  exact ⟨_, hexec, rfl, rfl, fun _ _ => rfl, fun _ _ => rfl, ⟨rfl, rfl⟩, rfl⟩

end Sys2Proof.Machine
end

/-! # The ALU (42_alu.md): ADD, SUB, MUL, DIV and MOD -/

section
namespace Sys2Proof.Machine

variable {i j : Instr} {f g : Word → Word → Except Raised Word} {a b : Reg} {s : State} {e : Raised}
  {va vb v w : Word}

/-! ## What the common shape does (R85) -/

/-- An instruction whose effect raises a fault ends in the state R128 describes. -/
theorem exec_of_effect_error (h : effect i s = .error e) : exec i s = .next (faultedAt s e.cause e.info) :=
  exec_eq_next.2 (.inr ⟨e, h, (takeFault_eq e s).symm⟩)

/-- An ALU instruction whose function raises nothing completes: its function gave the destination's value, and nothing but
the destination and PC is written. -/
theorem exec_alu_of_no_error (hi : effect i s = aluOp f (regByte a) (regByte b) s)
    (hf : ∀ e, f (s.reg a) (s.reg b) ≠ .error e) :
    ∃ t, exec i s = .next t ∧ f (s.reg a) (s.reg b) = .ok (t.reg a) ∧ t.pc = s.pc + 3#16 ∧ OnlyRegsAndPc s t [a] := by
  cases hv : f (s.reg a) (s.reg b) with
  | error e => exact absurd hv (hf e)
  | ok v =>
    have hexec : exec i s = .next ((s.setReg a v).advance 3) :=
      exec_eq_next.2 (.inl (hi.trans (aluOp_eq_ok.2 ⟨a, b, v, rfl, rfl, hv, rfl⟩)))
    refine ⟨_, hexec, ?_, rfl, fun r hr => ?_, fun _ _ => rfl, ⟨rfl, rfl⟩, rfl, rfl⟩
    · rw [advance_reg, reg_setReg_same]
    · rw [advance_reg, reg_setReg_other _ _ _ _ (List.ne_of_not_mem_cons hr)]

/-- An ALU instruction on legal operands takes the fault its function raises. -/
theorem exec_alu_of_error (hi : effect i s = aluOp f (regByte a) (regByte b) s) (hf : f (s.reg a) (s.reg b) = .error e) :
    exec i s = .next (faultedAt s e.cause e.info) :=
  exec_of_effect_error (hi.trans (aluOp_eq_error.2 (.inr ⟨a, b, rfl, rfl, hf⟩)))

/-- A two-operand form whose effect passes on the fault of its index checks ends, on a bad index, in the state R128
describes; a bad first index hides a bad second one (R13). -/
theorem badIndicesFault_of_effect {mk : Byte → Byte → Instr}
    (h : ∀ {opA opB : Byte} {s : State} {e : Raised}, regidx2 opA opB = .error e → effect (mk opA opB) s = .error e) :
    BadIndicesFault mk := fun _ _ _ =>
  ⟨fun hA => exec_of_effect_error (h (regidx2_eq_error.2 (.inl ⟨hA, rfl⟩))),
   fun hA hB => exec_of_effect_error (h (regidx2_eq_error.2 (.inr ⟨hA, hB, rfl⟩)))⟩

/-- The five check their two indices before anything else (R85, R127). -/
theorem badIndicesFault_of_aluOp {mk : Byte → Byte → Instr}
    (h : ∀ opA opB s, effect (mk opA opB) s = aluOp f opA opB s) : BadIndicesFault mk :=
  badIndicesFault_of_effect fun he => (h ..).trans (aluOp_eq_error.2 (.inl he))

/-! ## The laws of the ALU functions (R92) -/

theorem aluDiv_ne_error (h : vb ≠ 0#16) (e : Raised) : aluDiv va vb ≠ .error e := fun he => h (aluDiv_eq_error.1 he).1

theorem aluMod_ne_error (h : vb ≠ 0#16) (e : Raised) : aluMod va vb ≠ .error e := fun he => h (aluMod_eq_error.1 he).1

/-- The difference cancels the sum, across the wrap. -/
theorem aluSub_of_aluAdd (hv : aluAdd va vb = .ok v) (hw : aluSub v vb = .ok w) : w = va := by
  rw [aluAdd_eq_ok] at hv
  rw [aluSub_eq_ok] at hw
  have hva := va.isLt
  have hvb := vb.isLt
  apply BitVec.eq_of_toNat_eq
  split at hw <;> omega

/-- The sum cancels the difference, across the borrow. -/
theorem aluAdd_of_aluSub (hv : aluSub va vb = .ok v) (hw : aluAdd v vb = .ok w) : w = va := by
  rw [aluSub_eq_ok] at hv
  rw [aluAdd_eq_ok] at hw
  have hva := va.isLt
  have hvb := vb.isLt
  apply BitVec.eq_of_toNat_eq
  split at hv <;> omega

/-- Quotient and remainder of one division reconstruct the dividend, and the remainder is the smaller. -/
theorem aluDiv_mul_add_aluMod (hv : aluDiv va vb = .ok v) (hw : aluMod va vb = .ok w) :
    v.toNat * vb.toNat + w.toNat = va.toNat ∧ w.toNat < vb.toNat := by
  obtain ⟨hvb, hv⟩ := aluDiv_eq_ok.1 hv
  obtain ⟨-, hw⟩ := aluMod_eq_ok.1 hw
  have hpos : 0 < vb.toNat := Nat.pos_of_ne_zero fun h => hvb (BitVec.eq_of_toNat_eq h)
  rw [hv, hw]
  exact ⟨Nat.div_add_mod' .., Nat.mod_lt _ hpos⟩

/-- When `g` cancels `f`, two instructions of the common shape, the second of which reads a source the first left alone,
restore the destination. -/
theorem exec_alu_cancel (hab : a ≠ b) (hi : ∀ s, effect i s = aluOp f (regByte a) (regByte b) s)
    (hj : ∀ s, effect j s = aluOp g (regByte a) (regByte b) s) (hf : ∀ va vb e, f va vb ≠ .error e)
    (hg : ∀ va vb e, g va vb ≠ .error e) (hgf : ∀ {va vb v w}, f va vb = .ok v → g v vb = .ok w → w = va) (s : State) :
    ∃ t u, exec i s = .next t ∧ exec j t = .next u ∧ u.reg a = s.reg a := by
  obtain ⟨t, ht, hv, -, hsame, -⟩ := exec_alu_of_no_error (hi s) (hf _ _)
  obtain ⟨u, hu, hw, -⟩ := exec_alu_of_no_error (hj t) (hg _ _)
  have hb : t.reg b = s.reg b := hsame b (by simpa using hab.symm)
  rw [hb] at hw
  exact ⟨t, u, ht, hu, hgf hv hw⟩

/-! ## The statements -/

/-- Settles O46: both complete for the non-zero divisor, and their functions satisfy the division law. -/
theorem quotientAndRemainderReconstruct : Obligations.QuotientAndRemainderReconstruct := by
  intro a b s hb
  obtain ⟨t, ht, hq, -⟩ := exec_alu_of_no_error (i := .div (regByte a) (regByte b)) rfl (aluDiv_ne_error hb)
  obtain ⟨u, hu, hr, -⟩ := exec_alu_of_no_error (i := .mod (regByte a) (regByte b)) rfl (aluMod_ne_error hb)
  exact ⟨t, u, ht, hu, aluDiv_mul_add_aluMod hq hr⟩

/-- Settles O47: the first instruction leaves register b alone, and the second function cancels the first. -/
theorem subUndoesAdd : Obligations.SubUndoesAdd := fun _ _ s hab =>
  ⟨exec_alu_cancel hab (fun _ => rfl) (fun _ => rfl) aluAdd_ne_error aluSub_ne_error aluSub_of_aluAdd s,
   exec_alu_cancel hab (fun _ => rfl) (fun _ => rfl) aluSub_ne_error aluAdd_ne_error aluAdd_of_aluSub s⟩

/-- Settles O8: ADD has the common shape, and its function is the sum modulo 2^16. -/
theorem addWritesSumModulo65536 : Obligations.AddWritesSumModulo65536 := by
  refine ⟨fun _ _ => rfl, fun a b s => ?_, badIndicesFault_of_aluOp fun _ _ _ => rfl⟩
  obtain ⟨t, hexec, hv, hframe⟩ := exec_alu_of_no_error (i := .add (regByte a) (regByte b)) rfl (aluAdd_ne_error _ _)
  exact ⟨t, hexec, aluAdd_eq_ok.1 hv, hframe⟩

/-- Settles O9: SUB has the common shape, and its function is the difference in the two cases of R87. -/
theorem subWritesDifferenceModulo65536 : Obligations.SubWritesDifferenceModulo65536 := by
  refine ⟨fun _ _ => rfl, fun a b s => ?_, badIndicesFault_of_aluOp fun _ _ _ => rfl⟩
  obtain ⟨t, hexec, hv, hframe⟩ := exec_alu_of_no_error (i := .sub (regByte a) (regByte b)) rfl (aluSub_ne_error _ _)
  exact ⟨t, hexec, aluSub_eq_ok.1 hv, hframe⟩

/-- Settles O10: MUL has the common shape, and its function is the low half of the product. -/
theorem mulWritesLowHalfOfProduct : Obligations.MulWritesLowHalfOfProduct := by
  refine ⟨fun _ _ => rfl, fun a b s => ?_, badIndicesFault_of_aluOp fun _ _ _ => rfl⟩
  obtain ⟨t, hexec, hv, hframe⟩ := exec_alu_of_no_error (i := .mul (regByte a) (regByte b)) rfl (aluMul_ne_error _ _)
  exact ⟨t, hexec, aluMul_eq_ok.1 hv, hframe⟩

/-- Settles O11: DIV has the common shape, and its function raises exactly for a zero divisor. -/
theorem divWritesQuotientOrFaults : Obligations.DivWritesQuotientOrFaults := by
  refine ⟨fun _ _ => rfl, fun a b s hb => ?_, fun a b s hb => ?_, badIndicesFault_of_aluOp fun _ _ _ => rfl⟩
  · obtain ⟨t, hexec, hv, hframe⟩ := exec_alu_of_no_error (i := .div (regByte a) (regByte b)) rfl (aluDiv_ne_error hb)
    exact ⟨t, hexec, (aluDiv_eq_ok.1 hv).2, hframe⟩
  · exact exec_alu_of_error rfl (aluDiv_eq_error.2 ⟨hb, rfl⟩)

/-- Settles O12: MOD has the common shape, and its function raises exactly for a zero divisor. -/
theorem modWritesRemainderOrFaults : Obligations.ModWritesRemainderOrFaults := by
  refine ⟨fun _ _ => rfl, fun a b s hb => ?_, fun a b s hb => ?_, badIndicesFault_of_aluOp fun _ _ _ => rfl⟩
  · obtain ⟨t, hexec, hv, hframe⟩ := exec_alu_of_no_error (i := .mod (regByte a) (regByte b)) rfl (aluMod_ne_error hb)
    exact ⟨t, hexec, (aluMod_eq_ok.1 hv).2, hframe⟩
  · exact exec_alu_of_error rfl (aluMod_eq_error.2 ⟨hb, rfl⟩)

end Sys2Proof.Machine
end

/-! # Compare (43_compare.md): CMP, and what the conditional jumps see of it -/

section
namespace Sys2Proof.Machine

variable {s t : State} {i : Instr} {va vb : Word}

/-! ## CMP's one write -/

theorem equalFlag_eq_true_iff : equalFlag va vb = true ↔ va = vb := decide_eq_true_iff

/-- CMP of two registers completes: it writes FL and advances PC (R95). -/
theorem exec_cmp_regByte (a b : Reg) (s : State) :
    exec (.cmp (regByte a) (regByte b)) s = .next ((s.setFl (equalFlag (s.reg a) (s.reg b))).advance 3) :=
  exec_eq_next.2 (.inl (cmpEffect_eq_ok.2 ⟨a, b, rfl, rfl, rfl⟩))

/-- FL after CMP is the comparison of the registers before it. -/
theorem exec_cmp_fl {a b : Reg} (h : exec (.cmp (regByte a) (regByte b)) s = .next t) :
    t.fl = equalFlag (s.reg a) (s.reg b) := by
  rw [exec_cmp_regByte] at h
  cases h
  rfl

/-! ## What the conditional jumps see -/

/-- A conditional jump on a register completes: to the register when its condition holds, else on by 2, and nothing but PC is
written (R106, R107). -/
theorem exec_jumpIf_regByte {c : Bool} {r : Reg} (hi : effect i s = jumpIf c (regByte r) s) :
    ∃ t, exec i s = .next t ∧ t.pc = (if c = true then s.reg r else s.pc + 2#16) ∧ OnlyRegsAndPc s t [] := by
  have hexec : exec i s = .next (if c = true then s.setPc (s.reg r) else s.advance 2) :=
    exec_eq_next.2 (.inl (hi.trans (jumpIf_eq_ok.2 ⟨r, rfl, rfl⟩)))
  refine ⟨_, hexec, ?_⟩
  split <;> exact ⟨rfl, fun _ _ => rfl, fun _ _ => rfl, ⟨rfl, rfl⟩, rfl, rfl⟩

/-- Along any run without a CMP FL is kept (R16, R96). -/
theorem stepsWithoutCmp_fl {n : Nat} (h : stepsWithoutCmp n s t) : t.fl = s.fl := by
  induction n generalizing s with
  | zero =>
    obtain rfl : t = s := h
    rfl
  | succ n ih =>
    obtain ⟨hno, u, hu, hrest⟩ := h
    have hstep : u.fl = s.fl := by
      rcases step_fl hu with hfl | ⟨opA, opB, hcmp⟩
      · exact hfl
      · exact absurd hcmp (hno opA opB)
    exact (ih hrest).trans hstep

/-- A loaded machine has FL = 0 (D11, log 2). -/
theorem boot_fl {bs : List Byte} (h : boot bs = some s) : s.fl = false := by
  obtain ⟨-, rfl⟩ := boot_eq_some.1 h
  rfl

/-! ## The statements -/

/-- Settles O37: a run without a CMP keeps FL as the CMP, or the load, left it, and the jumps test FL. -/
theorem jumpsSeeTheLastComparison : Obligations.JumpsSeeTheLastComparison := by
  refine ⟨fun n a b c s t u hcmp hrun => ?_, fun n bs s u hboot hrun => (stepsWithoutCmp_fl hrun).trans (boot_fl hboot)⟩
  have hfl : u.fl = equalFlag (s.reg a) (s.reg b) := (stepsWithoutCmp_fl hrun).trans (exec_cmp_fl hcmp)
  obtain ⟨v, hv, hvpc, -⟩ := exec_jumpIf_regByte (i := .jeq (regByte c)) (s := u) rfl
  obtain ⟨w, hw, hwpc, -⟩ := exec_jumpIf_regByte (i := .jne (regByte c)) (s := u) rfl
  refine ⟨⟨v, hv, ?_⟩, ⟨w, hw, ?_⟩⟩
  · simpa only [hfl, equalFlag_eq_true_iff] using hvpc
  · simpa only [hfl, Bool.not_eq_true', ← Bool.not_eq_true, equalFlag_eq_true_iff, ite_not] using hwpc

/-- Settles O13: CMP's effect is one write of FL and an advance of PC, and only its index checks can raise. -/
theorem cmpSetsFlagToEquality : Obligations.CmpSetsFlagToEquality := by
  refine ⟨fun _ _ => rfl, fun a b s => ?_, badIndicesFault_of_effect cmpEffect_eq_error.2⟩
  have hfl : equalFlag (s.reg a) (s.reg b) = true ↔ (s.reg a).toNat = (s.reg b).toNat :=
    equalFlag_eq_true_iff.trans BitVec.toNat_inj.symm
  exact ⟨_, exec_cmp_regByte a b s, hfl, rfl, fun _ _ => rfl, fun _ _ => rfl, ⟨rfl, rfl⟩, rfl⟩

end Sys2Proof.Machine
end

/-! # The stack (44_stack.md): PUSH, POP and their round trip -/

section
namespace Sys2Proof.Machine

variable {s t : State} {v : Word} {b : Byte}

/-! ## What one push and one pop do -/

/-- A byte pushed and popped comes back whole when the value fits in it (R103). -/
theorem zext16_lowByte (h : v.toNat < 256) : zext16 (lowByte v) = v :=
  BitVec.eq_of_toNat_eq (by rw [zext16_toNat, lowByte_toNat, Nat.mod_eq_of_lt h])

/-- The increment of a popped byte does not wrap (R102). -/
theorem zext16_add_one_toNat (b : Byte) : (zext16 b + 1#16).toNat = b.toNat + 1 := by
  have hb := b.isLt
  rw [BitVec.toNat_add, zext16_toNat, BitVec.toNat_ofNat]
  omega

/-- A push decrements SP, stores the low byte in the cell SP then names, and writes nothing else (R100). -/
theorem pushLow_frame (h : pushLow s v = .ok t) :
    t.sp = s.sp - 1#16 ∧ t.pc = s.pc ∧ OnlyRegsMemAndPc s t [7] [pushAddr s] ∧
      (s.mem.wf = true → memRead t (pushAddr s) = .ok (lowByte v)) := by
  obtain ⟨haddr, rfl⟩ := pushLow_eq_ok.1 h
  refine ⟨preDecrementSp_sp s, rfl, ⟨fun r hr => ?_, fun x hx => ?_, ⟨rfl, rfl⟩, rfl, rfl⟩,
    fun hw => memRead_write_same hw haddr rfl⟩
  · exact (preDecrementSp_reg s r).trans (if_neg (List.ne_of_not_mem_cons hr))
  · exact memRead_write_other rfl (List.ne_of_not_mem_cons hx)

/-- PUSH of a register with the pushed cell in memory completes (R101); the value it stores is read after SP is
decremented, which shows for R7. -/
theorem exec_push_regByte (h : pushAddr s < 256) (a : Reg) : ∃ t, exec (.push (regByte a)) s = .next t ∧
    t.sp = s.sp - 1#16 ∧ t.pc = s.pc + 2#16 ∧ OnlyRegsMemAndPc s t [7] [pushAddr s] ∧
      (s.mem.wf = true → memRead t (pushAddr s) = .ok (lowByte ((preDecrementSp s).reg a))) := by
  obtain ⟨hsp, hpc, hframe, hcell⟩ := pushLow_frame (pushLow_ok (v := (preDecrementSp s).reg a) h)
  exact ⟨_, exec_eq_next.2 (.inl (pushEffect_eq_ok.2 ⟨a, rfl, h, rfl⟩)), hsp,
    by rw [advance_pc, hpc], hframe, hcell⟩

/-- POP of a register with the cell SP names in memory completes (R102); the increment reads SP after the register is
written, which shows for R7. -/
theorem exec_pop_regByte (h : memRead s (popAddr s) = .ok b) (a : Reg) : ∃ t, exec (.pop (regByte a)) s = .next t ∧
    (a ≠ 7 → t.reg a = zext16 b) ∧ t.sp = (if a = 7 then zext16 b else s.sp) + 1#16 ∧ t.pc = s.pc + 2#16 ∧
      OnlyRegsAndPc s t [a, 7] := by
  obtain ⟨haddr, rfl⟩ := memRead_eq_ok.1 h
  refine ⟨_, exec_eq_next.2 (.inl (popEffect_eq_ok.2 ⟨a, rfl, haddr, rfl⟩)), fun ha => ?_, ?_, rfl,
    fun r hr => ?_, fun _ _ => rfl, ⟨rfl, rfl⟩, rfl, rfl⟩
  · rw [advance_reg, postIncrementSp_reg, if_neg ha, reg_setReg_same]
  · rw [advance_sp, postIncrementSp_sp, sp_setReg]
  · obtain ⟨hra, hr7⟩ : r ≠ a ∧ r ≠ 7 := by simpa using hr
    rw [advance_reg, postIncrementSp_reg, if_neg hr7, reg_setReg_other _ _ _ _ hra]

/-! ## The statements -/

/-- Settles O44: the POP reads the byte the PUSH stored; for R7 that byte is the whole decremented SP. -/
theorem popAfterPushRestores : Obligations.PopAfterPushRestores := by
  refine ⟨fun a s t u ha hw haddr ht husp hucell => ?_, fun s t hw haddr ht => ?_⟩
  · obtain ⟨t', ht', hsp, -, -, hcell⟩ := exec_push_regByte haddr a
    obtain rfl : t = t' := Host.Outcome.next.inj (ht.symm.trans ht')
    have husp : u.sp = s.sp - 1#16 := husp.trans hsp
    have hpop : popAddr u = pushAddr s := congrArg BitVec.toNat husp
    obtain ⟨v, hv, hreg, hvsp, -⟩ := exec_pop_regByte (hpop ▸ hucell.trans (hcell hw)) a
    refine ⟨v, hv, ?_, ?_⟩
    · rw [hvsp, if_neg ha, husp, BitVec.sub_add_cancel]
    · rw [hreg ha, zext16_toNat, lowByte_toNat, preDecrementSp_reg_toNat, if_neg ha]
  · obtain ⟨t', ht', hsp, -, ⟨hregs, hmem, -⟩, hcell⟩ := exec_push_regByte haddr 7
    obtain rfl : t = t' := Host.Outcome.next.inj (ht.symm.trans ht')
    have hpop : popAddr t = pushAddr s := congrArg BitVec.toNat hsp
    obtain ⟨v, hv, -, hvsp, -, ⟨hvregs, hvmem, -⟩⟩ := exec_pop_regByte (hpop ▸ hcell hw) 7
    have hstored : (preDecrementSp s).reg 7 = s.sp - 1#16 := preDecrementSp_sp s
    have hrestored : v.sp = s.sp := by rw [hvsp, if_pos rfl, hstored, zext16_lowByte haddr, BitVec.sub_add_cancel]
    refine ⟨v, hv, fun r _ => ?_, fun x hx => (hvmem x List.not_mem_nil).trans (hmem x hx)⟩
    by_cases hr : r = 7
    · exact hr ▸ hrestored
    · exact (hvregs r (by simpa using hr)).trans (hregs r (by simpa using hr))

/-- Settles O14: a push in range completes with the frame of one cell, one above 255 or with a bad index raises. -/
theorem pushStoresLowByteBelowStackPointer : Obligations.PushStoresLowByteBelowStackPointer := by
  refine ⟨fun _ _ => rfl, pushAddr_eq, fun a s haddr => ?_, fun a s haddr => ?_,
    badIndexFaults_of_effect fun he => pushEffect_eq_error.2 (.inl he)⟩
  · obtain ⟨t, hexec, hsp, hpc, hframe, hcell⟩ := exec_push_regByte haddr a
    refine ⟨t, hexec, hsp, hpc, hframe, fun hw => ⟨_, hcell hw, ?_⟩⟩
    rw [lowByte_toNat, preDecrementSp_reg_toNat]
  · exact exec_of_effect_error (i := .push (regByte a)) (pushEffect_eq_error.2 (.inr ⟨a, rfl, haddr, rfl⟩))

/-- Settles O15: a pop in range completes and leaves memory alone, one above 255 or with a bad index raises. -/
theorem popLoadsByteAtStackPointer : Obligations.PopLoadsByteAtStackPointer := by
  refine ⟨fun _ _ => rfl, fun _ => rfl, fun a s haddr => ?_, fun a s haddr => ?_,
    badIndexFaults_of_effect fun he => popEffect_eq_error.2 (.inl he)⟩
  · have hread := memRead_ok (s := s) haddr
    obtain ⟨t, hexec, hreg, hsp, hpc, hframe⟩ := exec_pop_regByte hread a
    refine ⟨t, _, hexec, hread, fun ha => ⟨?_, ?_⟩, fun ha => ?_, hpc, hframe⟩
    · rw [hreg ha, zext16_toNat]
    · rw [hsp, if_neg ha]
    · rw [hsp, if_pos ha, zext16_add_one_toNat]
  · exact exec_of_effect_error (i := .pop (regByte a)) (popEffect_eq_error.2 (.inr ⟨a, rfl, haddr, rfl⟩))

end Sys2Proof.Machine
end

/-! # Control transfer (45_control_transfer.md): JMP, JEQ, JNE, CALL, RET and the return -/

section
namespace Sys2Proof.Machine

variable {s : State} {b : Byte}

/-! ## What one CALL and one RET do -/

/-- The return address of a fetched CALL does not wrap (R15, R108). -/
theorem returnAddress_toNat (h : s.pc.toNat ≤ 253) : (returnAddress s).toNat = s.pc.toNat + 2 :=
  advance_pc_toNat h (n := 2) (by omega)

/-- The byte a CALL pushes, from any PC: the wrap of the sum at 2^16 does not show in the low byte (R108, D7). -/
theorem lowByte_returnAddress_toNat (s : State) : (lowByte (returnAddress s)).toNat = (s.pc.toNat + 2) % 256 := by
  rw [lowByte_toNat, returnAddress, BitVec.toNat_add, BitVec.toNat_ofNat]
  omega

/-- The return address of a fetched CALL fits in the pushed byte, so a RET reads it back whole (R111). -/
theorem zext16_lowByte_returnAddress (h : s.pc.toNat ≤ 253) : zext16 (lowByte (returnAddress s)) = returnAddress s := by
  have hra : (returnAddress s).toNat = s.pc.toNat + 2 := returnAddress_toNat h
  exact zext16_lowByte (by omega)

/-- CALL of a register with the pushed cell in memory completes (R108); the target is read after SP is decremented, which
shows for R7. -/
theorem exec_call_regByte (h : pushAddr s < 256) (a : Reg) : ∃ t, exec (.call (regByte a)) s = .next t ∧
    t.pc = (if a = 7 then s.sp - 1#16 else s.reg a) ∧ t.sp = s.sp - 1#16 ∧ OnlyRegsMemAndPc s t [7] [pushAddr s] ∧
      (s.mem.wf = true → memRead t (pushAddr s) = .ok (lowByte (returnAddress s))) := by
  obtain ⟨hsp, -, hframe, hcell⟩ := pushLow_frame (pushLow_ok (v := returnAddress s) h)
  exact ⟨_, exec_eq_next.2 (.inl (callEffect_eq_ok.2 ⟨a, rfl, h, rfl⟩)), preDecrementSp_reg s a, hsp, hframe, hcell⟩

/-- RET with the cell SP names in memory completes: that byte is the target, and SP is incremented (R109). -/
theorem exec_ret_of_memRead (h : memRead s (popAddr s) = .ok b) : ∃ t, exec .ret s = .next t ∧
    t.pc = zext16 b ∧ t.sp = s.sp + 1#16 ∧ OnlyRegsAndPc s t [7] := by
  obtain ⟨haddr, rfl⟩ := memRead_eq_ok.1 h
  refine ⟨_, exec_eq_next.2 (.inl (retEffect_eq_ok.2 ⟨haddr, rfl⟩)), rfl, postIncrementSp_sp s,
    fun r hr => ?_, fun _ _ => rfl, ⟨rfl, rfl⟩, rfl, rfl⟩
  rw [setPc_reg, postIncrementSp_reg, if_neg (List.ne_of_not_mem_cons hr)]

/-! ## The statements -/

/-- Settles O45: the RET reads the byte the CALL stored, and the return address fits in it. -/
theorem retAfterCallReturns : Obligations.RetAfterCallReturns := by
  intro a s t u hw hpc haddr ht husp hucell
  obtain ⟨t', ht', -, hsp, -, hcell⟩ := exec_call_regByte haddr a
  obtain rfl : t = t' := Host.Outcome.next.inj (ht.symm.trans ht')
  have husp : u.sp = s.sp - 1#16 := husp.trans hsp
  have hpop : popAddr u = pushAddr s := congrArg BitVec.toNat husp
  obtain ⟨v, hv, hvpc, hvsp, -⟩ := exec_ret_of_memRead (hpop ▸ hucell.trans (hcell hw))
  refine ⟨v, hv, ?_, ?_⟩
  · rw [hvpc, zext16_lowByte_returnAddress hpc, returnAddress]
  · rw [hvsp, husp, BitVec.sub_add_cancel]

/-- Settles O16: a CALL in range completes with the frame of one cell, one above 255 or with a bad index raises. -/
theorem callPushesReturnAddressAndJumps : Obligations.CallPushesReturnAddressAndJumps := by
  refine ⟨fun _ _ => rfl, fun a s haddr => ?_, fun a s haddr => ?_,
    badIndexFaults_of_effect fun he => callEffect_eq_error.2 (.inl he)⟩
  · obtain ⟨t, hexec, hpc, hsp, hframe, hcell⟩ := exec_call_regByte haddr a
    exact ⟨t, hexec, hpc, hsp, hframe, fun hw => ⟨_, hcell hw, lowByte_returnAddress_toNat s⟩⟩
  · exact exec_of_effect_error (i := .call (regByte a)) (callEffect_eq_error.2 (.inr ⟨a, rfl, haddr, rfl⟩))

/-- Settles O17: a RET in range completes with the byte at SP as PC, one above 255 raises. -/
theorem retPopsTargetIntoPc : Obligations.RetPopsTargetIntoPc := by
  refine ⟨fun _ _ => rfl, fun s haddr => ?_, fun s haddr => ?_⟩
  · have hread := memRead_ok (s := s) haddr
    obtain ⟨t, hexec, hpc, hsp, hframe⟩ := exec_ret_of_memRead hread
    exact ⟨t, _, hexec, hread, by rw [hpc, zext16_toNat], hsp, hframe⟩
  · exact exec_of_effect_error (i := .ret) (retEffect_eq_error.2 ⟨haddr, rfl⟩)

/-- Settles O18: JMP's effect is one write of PC, and only its index check can raise. -/
theorem jmpCopiesRegisterToPc : Obligations.JmpCopiesRegisterToPc := by
  refine ⟨fun _ _ => rfl, fun a s => ?_, badIndexFaults_of_effect jmpEffect_eq_error.2⟩
  have hexec : exec (.jmp (regByte a)) s = .next (s.setPc (s.reg a)) :=
    exec_eq_next.2 (.inl (jmpEffect_eq_ok.2 ⟨a, rfl, rfl⟩))
  exact ⟨_, hexec, rfl, fun _ _ => rfl, fun _ _ => rfl, ⟨rfl, rfl⟩, rfl, rfl⟩

/-- Settles O19: JEQ is the conditional jump on FL, and its index is checked on both paths. -/
theorem jeqJumpsWhenFlagIsSet : Obligations.JeqJumpsWhenFlagIsSet :=
  ⟨fun _ _ => rfl, fun _ _ => exec_jumpIf_regByte rfl, badIndexFaults_of_effect jumpIf_eq_error.2⟩

/-- Settles O20: JNE is the conditional jump on the complement of FL, and its index is checked on both paths. -/
theorem jneJumpsWhenFlagIsClear : Obligations.JneJumpsWhenFlagIsClear := by
  refine ⟨fun _ _ => rfl, fun a s => ?_, badIndexFaults_of_effect jumpIf_eq_error.2⟩
  obtain ⟨t, hexec, hpc, hframe⟩ := exec_jumpIf_regByte (i := .jne (regByte a)) (s := s) rfl
  exact ⟨t, hexec, by simpa only [Bool.not_eq_true'] using hpc, hframe⟩

end Sys2Proof.Machine
end

/-! # Exceptions (60_exceptions.md): which fault a step takes, what it leaves, and what each cause says -/

section
namespace Sys2Proof.Machine

variable {s t : State} {i : Instr} {e : Raised} {f : FaultRecord} {opA opB b : Byte}

/-! ## The first illegal register index (R13, R122) -/

/-- The first operand byte that is used as a register index and is none, in the order in which execute checks them. -/
def firstIllegal (bs : List Byte) : Option Byte := bs.find? fun b => decide (7 < b.toNat)

/-- The check of levels 5 and 6 of R127 finds this byte. -/
theorem find?_not_legalIndex (bs : List Byte) : (bs.find? fun b => !legalIndex b) = firstIllegal bs := by
  have hpred : (fun b : Byte => !legalIndex b) = fun b => decide (7 < b.toNat) := by
    funext b
    rw [legalIndex, ← decide_not, decide_eq_decide]
    omega
  rw [hpred, firstIllegal]

theorem firstIllegal_eq_none {bs : List Byte} : firstIllegal bs = none ↔ ∀ b ∈ bs, b.toNat ≤ 7 := by
  simp [firstIllegal, List.find?_eq_none]

theorem regidx_of_firstIllegal (h : firstIllegal [opA] = some b) : regidx opA = .error (invalidRegister b) := by
  obtain ⟨hA, rfl⟩ : 7 < opA.toNat ∧ opA = b := by simpa [firstIllegal] using h
  exact regidx_error hA

theorem regidx2_of_firstIllegal (h : firstIllegal [opA, opB] = some b) :
    regidx2 opA opB = .error (invalidRegister b) := by
  by_cases hA : 7 < opA.toNat
  · obtain rfl : opA = b := by simpa [firstIllegal, hA] using h
    exact regidx2_eq_error.2 (.inl ⟨hA, rfl⟩)
  · obtain ⟨hB, rfl⟩ : 7 < opB.toNat ∧ opB = b := by simpa [firstIllegal, hA] using h
    exact regidx2_eq_error.2 (.inr ⟨by omega, hB, rfl⟩)

/-- Every instruction checks its register indices before anything else (R73, R127). -/
theorem effect_of_firstIllegal (h : firstIllegal i.regOperands = some b) : effect i s = .error (invalidRegister b) := by
  cases i <;> simp only [effect]
  case hlt => cases h
  case ret => cases h
  case ldi => exact ldiEffect_eq_error.2 (regidx_of_firstIllegal h)
  case prn => exact prnEffect_eq_error.2 (regidx_of_firstIllegal h)
  case cmp => exact cmpEffect_eq_error.2 (regidx2_of_firstIllegal h)
  case push => exact pushEffect_eq_error.2 (.inl (regidx_of_firstIllegal h))
  case pop => exact popEffect_eq_error.2 (.inl (regidx_of_firstIllegal h))
  case call => exact callEffect_eq_error.2 (.inl (regidx_of_firstIllegal h))
  case jmp => exact jmpEffect_eq_error.2 (regidx_of_firstIllegal h)
  case jeq => exact jumpIf_eq_error.2 (regidx_of_firstIllegal h)
  case jne => exact jumpIf_eq_error.2 (regidx_of_firstIllegal h)
  all_goals exact aluOp_eq_error.2 (.inl (regidx2_of_firstIllegal h))

/-! ## The zero divisor and the stack access, once the indices are legal -/

@[simp] theorem ofNat_regByte_toNat (r : Reg) : Fin.ofNat 8 (regByte r).toNat = r := by
  rw [regByte_toNat, Fin.ofNat_val_eq_self]

/-- DIV and MOD of two registers, the second holding 0, raise DivisionByZero (R123). -/
theorem effect_of_divisor_zero {a b : Reg} (hi : i = .div (regByte a) (regByte b) ∨ i = .mod (regByte a) (regByte b))
    (hb : s.reg b = 0#16) : effect i s = .error divisionByZero := by
  rcases hi with rfl | rfl
  · exact aluOp_eq_error.2 (.inr ⟨a, b, rfl, rfl, aluDiv_eq_error.2 ⟨hb, rfl⟩⟩)
  · exact aluOp_eq_error.2 (.inr ⟨a, b, rfl, rfl, aluMod_eq_error.2 ⟨hb, rfl⟩⟩)

/-- With legal indices, level 7 of R127 is a DIV or MOD of two registers whose second holds 0. -/
theorem zeroDivisor_eq_true (hlegal : ∀ b ∈ i.regOperands, b.toNat ≤ 7) : zeroDivisor i s = true ↔
    ∃ a b : Reg, (i = .div (regByte a) (regByte b) ∨ i = .mod (regByte a) (regByte b)) ∧ s.reg b = 0#16 := by
  constructor
  · intro hz
    have hregs {x y : Byte} (h : ∀ b ∈ [x, y], b.toNat ≤ 7) : (∃ a, x = regByte a) ∧ ∃ b, y = regByte b :=
      ⟨exists_regByte (Nat.lt_succ_of_le (h x (by simp))), exists_regByte (Nat.lt_succ_of_le (h y (by simp)))⟩
    cases i
    case div =>
      obtain ⟨⟨a, rfl⟩, b, rfl⟩ := hregs hlegal
      exact ⟨a, b, .inl rfl, by simpa [zeroDivisor] using hz⟩
    case mod =>
      obtain ⟨⟨a, rfl⟩, b, rfl⟩ := hregs hlegal
      exact ⟨a, b, .inr rfl, by simpa [zeroDivisor] using hz⟩
    all_goals cases hz
  · rintro ⟨a, b, rfl | rfl, hb⟩ <;> simp [zeroDivisor, hb]

/-- With legal indices, a stack access above 255 is OutOfBounds at its address (R121, R137). -/
theorem effect_of_stackAddr {a : Nat} (hlegal : ∀ b ∈ i.regOperands, b.toNat ≤ 7) (ha : stackAddr i s = some a)
    (hout : 255 < a) : effect i s = .error (outOfBounds a) := by
  have hreg {x : Byte} (h : ∀ b ∈ [x], b.toNat ≤ 7) : ∃ r, x = regByte r :=
    exists_regByte (Nat.lt_succ_of_le (h x (by simp)))
  cases i
  case push =>
    obtain ⟨r, rfl⟩ := hreg hlegal
    obtain rfl : pushAddr s = a := (pushAddr_eq s).trans (Option.some.inj ha)
    exact pushEffect_eq_error.2 (.inr ⟨r, rfl, hout, rfl⟩)
  case call =>
    obtain ⟨r, rfl⟩ := hreg hlegal
    obtain rfl : pushAddr s = a := (pushAddr_eq s).trans (Option.some.inj ha)
    exact callEffect_eq_error.2 (.inr ⟨r, rfl, hout, rfl⟩)
  case pop =>
    obtain ⟨r, rfl⟩ := hreg hlegal
    obtain rfl : popAddr s = a := Option.some.inj ha
    exact popEffect_eq_error.2 (.inr ⟨r, rfl, hout, rfl⟩)
  case ret =>
    obtain rfl : popAddr s = a := Option.some.inj ha
    exact retEffect_eq_error.2 ⟨hout, rfl⟩
  all_goals cases ha

/-! ## The order of R127: execute's four levels, then the whole step -/

/-- The fault that levels 5 to 8 name is the one the instruction's effect raises. -/
theorem effect_of_executeFault_eq_some {cause : FaultCause} {info : Option Nat}
    (h : executeFault i s = some (cause, info)) : effect i s = .error ⟨cause, info⟩ := by
  rw [executeFault, find?_not_legalIndex] at h
  split at h
  case h_1 b hb =>
    cases h
    exact effect_of_firstIllegal hb
  case h_2 hnone =>
    have hlegal := firstIllegal_eq_none.1 hnone
    split at h
    case isTrue hz =>
      cases h
      obtain ⟨a, b, hi, hb⟩ := (zeroDivisor_eq_true hlegal).1 hz
      exact effect_of_divisor_zero hi hb
    case isFalse =>
      split at h
      case h_1 a ha =>
        obtain ⟨hout, hf⟩ := Option.ite_none_right_eq_some.1 h
        cases hf
        exact effect_of_stackAddr hlegal ha hout
      case h_2 => cases h

/-- No fault inside execute: every index is legal, no divisor is zero, and the stack access is in memory. -/
theorem legal_of_executeFault_eq_none (h : executeFault i s = none) :
    (∀ b ∈ i.regOperands, b.toNat ≤ 7) ∧ zeroDivisor i s = false ∧ ∀ a, stackAddr i s = some a → a ≤ 255 := by
  rw [executeFault, find?_not_legalIndex] at h
  split at h
  case h_1 => cases h
  case h_2 hnone =>
    split at h
    case isTrue => cases h
    case isFalse hz =>
      refine ⟨firstIllegal_eq_none.1 hnone, eq_false_of_ne_true hz, fun a ha => ?_⟩
      have hin : ¬255 < a := by simpa [ha] using h
      omega

/-- Where levels 5 to 8 name no fault, the instruction's effect succeeds. -/
theorem effect_of_executeFault_eq_none (h : executeFault i s = none) : ∃ t, effect i s = .ok t := by
  obtain ⟨hlegal, hz, hstack⟩ := legal_of_executeFault_eq_none h
  cases he : effect i s with
  | ok t => exact ⟨t, rfl⟩
  | error e =>
    rcases effect_error he with ⟨b, hb, hillegal, -⟩ | ⟨-, hdiv⟩ | ⟨a, ha, hout, -⟩
    · exact absurd (hlegal b hb) (by omega)
    · exact absurd ((zeroDivisor_eq_true hlegal).2 hdiv) (by simp [hz])
    · exact absurd (hstack a ha) (by omega)

/-- Levels 1 to 4 name the fault of the fetch and decode stages (R71, R72). -/
theorem firstFault_of_fetchInstr_error (h : fetchInstr s = .error e) : firstFault s = some (e.cause, e.info) := by
  rw [fetchInstr, fetch_eq] at h
  split at h
  case isTrue hpc =>
    cases h
    exact if_pos hpc
  case isFalse hpc =>
    split at h
    case isTrue =>
      cases h
      obtain hpc | hpc : s.pc.toNat = 255 ∨ s.pc.toNat = 254 := by omega
      · simp [firstFault, hpc, outOfBounds]
      · simp [firstFault, hpc, outOfBounds]
    case isFalse =>
      simp only [except_bind_ok, decodeWindow] at h
      split at h
      case h_1 => cases h
      case h_2 hdec =>
        cases h
        simp only [firstFault]
        rw [if_neg (by omega), if_neg (by omega), if_neg (by omega), hdec]
        rfl

/-- After a fetch, the first fault is execute's. -/
theorem firstFault_of_fetchInstr_ok (h : fetchInstr s = .ok i) : firstFault s = executeFault i s := by
  obtain ⟨hpc, hdec⟩ := fetchInstr_eq_ok.1 h
  simp only [firstFault]
  rw [if_neg (by omega), if_neg (by omega), if_neg (by omega), hdec]

/-! ## The record a fault leaves (R128) -/

/-- Taking a fault is the only write of FAULT: a new record is that of the effect's fault. -/
theorem effect_error_of_exec_record (hnone : s.fault = none) (h : exec i s = .next t) (hf : t.fault = some f) :
    ∃ e, effect i s = .error e ∧ f = ⟨e.cause, e.info, s.pc⟩ := by
  rcases exec_eq_next.1 h with he | ⟨e, he, rfl⟩
  · rw [(effect_control he).1, hnone] at hf
    cases hf
  · cases hf
    exact ⟨e, he, rfl⟩

/-- The same for a step: a new record is that of the fetch's or decode's fault, or that of the effect. -/
theorem error_of_step_record (hnone : s.fault = none) (h : step s = .next t) (hf : t.fault = some f) :
    ∃ e, f = ⟨e.cause, e.info, s.pc⟩ ∧ (fetchInstr s = .error e ∨ ∃ i, effect i s = .error e) := by
  obtain ⟨-, ⟨i, -, he⟩ | ⟨i, e, -, he, rfl⟩ | ⟨e, he, rfl⟩⟩ := step_eq_next h
  · rw [(effect_control he).1, hnone] at hf
    cases hf
  · cases hf
    exact ⟨e, rfl, .inr ⟨i, he⟩⟩
  · cases hf
    exact ⟨e, rfl, .inl he⟩

/-- R120 allows no record of UnsupportedOperation. -/
theorem FaultRecord.ok.cause_ne_unsupportedOperation (h : f.ok) : f.cause ≠ .unsupportedOperation := by
  intro hc
  simp [FaultRecord.ok, hc] at h

/-! ## The statements -/

/-- Settles O23: fetch and decode fault first, in their own order, then execute's levels name the effect's fault. -/
theorem stepRaisesTheFirstFaultInOrder : Obligations.StepRaisesTheFirstFaultInOrder := by
  intro s hrun
  cases hi : fetchInstr s with
  | error e =>
    rw [firstFault_of_fetchInstr_error hi]
    exact step_of_fetchInstr_error hrun hi
  | ok i =>
    rw [firstFault_of_fetchInstr_ok hi, step_eq_exec hrun hi]
    cases hf : executeFault i s with
    | some fault => exact exec_of_effect_error (effect_of_executeFault_eq_some hf)
    | none =>
      obtain ⟨t, he⟩ := effect_of_executeFault_eq_none hf
      exact ⟨t, exec_eq_next.2 (.inl he), (effect_control he).1, effect_run_ne_faulted he hrun⟩

/-- Settles O29: a completed step does not end in FAULTED, and `takeFault` writes RUN and FAULT alone. -/
theorem faultLeavesEverythingButRunAndFault : Obligations.FaultLeavesEverythingButRunAndFault := by
  intro s t h ht
  rcases step_completes_or_faults h with ⟨i, -, he⟩ | ⟨e, -, rfl⟩
  · exact absurd ht (effect_run_ne_faulted he (step_next_running h))
  · exact ⟨e.cause, e.info, rfl⟩

/-- Settles O30: the index checks stand first, and no later fault is InvalidRegister. -/
theorem illegalRegisterIndexFaults : Obligations.IllegalRegisterIndexFaults := by
  refine ⟨fun i s b hb => exec_of_effect_error (effect_of_firstIllegal hb), fun i s t f hlegal hnone h hf => ?_⟩
  obtain ⟨e, he, rfl⟩ := effect_error_of_exec_record hnone h hf
  rcases effect_error he with ⟨b, hb, hillegal, -⟩ | ⟨rfl, -⟩ | ⟨a, -, -, -, rfl⟩
  · exact absurd (hlegal b hb) (by omega)
  · nofun
  · nofun

/-- Settles O31: among an effect's faults only that of DIV's and MOD's divisor check is DivisionByZero. -/
theorem zeroDivisorFaults : Obligations.ZeroDivisorFaults := by
  refine ⟨fun a b s hb => ⟨?_, ?_⟩, fun i s t f hnone h hf hcause => ?_⟩
  · exact exec_of_effect_error (effect_of_divisor_zero (.inl rfl) hb)
  · exact exec_of_effect_error (effect_of_divisor_zero (.inr rfl) hb)
  · obtain ⟨e, he, rfl⟩ := effect_error_of_exec_record hnone h hf
    rcases effect_error he with ⟨b, -, -, rfl⟩ | ⟨rfl, hdiv⟩ | ⟨a, -, -, -, rfl⟩
    · cases hcause
    · exact ⟨rfl, hdiv⟩
    · cases hcause

/-- Settles O32: in a window in bounds the decoder rejects the byte, and no other stage raises UnknownInstruction. -/
theorem unknownOpcodeFaults : Obligations.UnknownOpcodeFaults := by
  refine ⟨fun s ir hrun hpc hir hop => ?_, fun s t f hnone h hf hcause => ?_⟩
  · have hwindow := fetchInstr_of_memRead hir (memRead_ok (by omega)) (memRead_ok (by omega))
    exact step_of_fetchInstr_error hrun (hwindow.trans (decodeWindow_of_not_mem hop ..))
  · obtain ⟨e, rfl, he | ⟨i, he⟩⟩ := error_of_step_record hnone h hf
    · rcases fetchInstr_error he with ⟨-, a, -, -, rfl⟩ | ⟨hpc, hop, rfl⟩
      · cases hcause
      · exact ⟨hpc, _, memRead_ok (by omega), hop, rfl⟩
    · rcases effect_error he with ⟨b, -, -, rfl⟩ | ⟨rfl, -⟩ | ⟨a, -, -, -, rfl⟩ <;> cases hcause

/-- Settles O33: a new record is one that R120 allows. -/
theorem unsupportedOperationIsUnreachable : Obligations.UnsupportedOperationIsUnreachable := by
  refine ⟨rfl, fun s t f hnone h hf => FaultRecord.ok.cause_ne_unsupportedOperation ?_⟩
  obtain ⟨e, rfl, he | ⟨i, he⟩⟩ := error_of_step_record hnone h hf
  · exact fetchInstr_error_ok he s.pc
  · exact effect_error_ok he s.pc

/-- Settles O34: only a running machine steps, and a completed step keeps FAULT. -/
theorem faultIsLeftOnlyByReset : Obligations.FaultIsLeftOnlyByReset := by
  refine ⟨fun s hrun t h => ?_, fun s t h hne => ?_, fun _ => ⟨rfl, rfl⟩⟩
  · have hrunning := step_next_running h
    rw [hrun] at hrunning
    cases hrunning
  · rcases step_completes_or_faults h with ⟨i, -, he⟩ | ⟨e, -, rfl⟩
    · exact absurd (effect_control he).1 hne
    · rfl

end Sys2Proof.Machine
end

/-! # Reset and load (70_reset_and_hazards.md): what a load places, and what any run of a loaded program owes the host -/

section
namespace Sys2Proof.Machine

variable {s t : State} {i : Instr} {bs : List Byte} {n nbits w k : Nat}

/-! ## The instruction placed in the fetch window (log 8) -/

/-- The table word is an instruction when the decoder accepts its three bytes. -/
theorem decodeTableWord_eq_some : decodeTableWord nbits w = some i ↔
    decode (tableByte nbits w 0) (tableByte nbits w 1) (tableByte nbits w 2) = .ok i := by
  unfold decodeTableWord
  split <;> simp_all

@[simp] theorem withFetchWord_pc : (s.withFetchWord nbits w).pc = s.pc := rfl

/-- With the whole window in memory, all three bytes of the word are placed. -/
theorem withFetchWord_mem (hpc : s.pc.toNat ≤ 253) : (s.withFetchWord nbits w).mem =
    s.mem.writeBytes s.pc.toNat [tableByte nbits w 0, tableByte nbits w 1, tableByte nbits w 2] := by
  have hroom : 3 ≤ 256 - s.pc.toNat := by omega
  rw [State.withFetchWord, List.take_of_length_le hroom]

/-- Each cell of the window reads the byte of the word that was placed there. -/
theorem read_withFetchWord (hpc : s.pc.toNat ≤ 253) (hw : s.mem.wf = true) (hk : k < 3) :
    (s.withFetchWord nbits w).mem.read (s.pc.toNat + k) = tableByte nbits w k := by
  rw [withFetchWord_mem hpc, Memory.read_writeBytes (by simp; omega) hw, if_pos (by simp; omega), Nat.add_sub_cancel_left]
  match k, hk with
  | 0, _ => rfl
  | 1, _ => rfl
  | 2, _ => rfl

/-- The placed instruction is the one that is fetched (R71). -/
theorem fetchInstr_withFetchWord (hpc : s.pc.toNat ≤ 253) (hw : s.mem.wf = true) (hi : decodeTableWord nbits w = some i) :
    fetchInstr (s.withFetchWord nbits w) = .ok i := by
  have hread0 : (s.withFetchWord nbits w).mem.read s.pc.toNat = tableByte nbits w 0 :=
    read_withFetchWord (k := 0) hpc hw (by omega)
  rw [fetchInstr_eq_ok, withFetchWord_pc, hread0, read_withFetchWord (k := 1) hpc hw (by omega),
    read_withFetchWord (k := 2) hpc hw (by omega)]
  exact ⟨hpc, decodeTableWord_eq_some.1 hi⟩

/-! ## The loaded program (R142) -/

/-- After a load, cell `k` reads byte `k` of the program, and 0 above its end. -/
theorem memRead_boot (h : boot bs = some s) (hk : k < 256) : memRead s k = .ok (bs.getD k 0#8) := by
  obtain ⟨hlen, rfl⟩ := boot_eq_some.1 h
  rw [memRead_ok hk, Memory.read_writeBytes (by omega) State.reset_mem_wf]
  split
  case isTrue => rfl
  case isFalse hout => exact congrArg _ (List.getD_eq_default _ _ (by omega)).symm

/-! ## Any run of a loaded program -/

/-- Along any run the invariant is kept. -/
theorem stepsTo_inv (hs : s.Inv) (h : stepsTo n s t) : t.Inv := by
  induction n generalizing s with
  | zero =>
    obtain rfl : t = s := h
    exact hs
  | succ n ih =>
    obtain ⟨u, hu, hrest⟩ := h
    exact ih (step_inv hs hu) hrest

/-- In FAULTED the record is set, and it is one R120 allows, charged to the PC the machine holds (R18, R128). -/
theorem State.Inv.exists_fault (hs : s.Inv) (hrun : s.run = .faulted) : ∃ f, s.fault = some f ∧ f.pc = s.pc ∧ f.ok := by
  obtain ⟨f, hf⟩ := Option.isSome_iff_exists.1 (hs.fault_iff.2 hrun)
  obtain ⟨hok, hpc⟩ := hs.fault_ok f hf
  exact ⟨f, hf, hpc, hok⟩

/-! ## The statements -/

/-- Settles O28: the window holds the word's bytes, so the word's instruction is fetched and run. -/
theorem placedInstructionRunsNext : Obligations.PlacedInstructionRunsNext := by
  intro s nbits w i hrun hpc hw hi
  exact ⟨step_eq_exec hrun (fetchInstr_withFetchWord hpc hw hi), rfl⟩

/-- Settles O43: a load is the reset state with the program stored from address 0 up. -/
theorem loadPlacesProgramFromAddressZero : Obligations.LoadPlacesProgramFromAddressZero := by
  refine ⟨fun bs hlen => ⟨_, boot_eq_some.2 ⟨hlen, rfl⟩⟩, fun bs s h => ?_⟩
  obtain ⟨hlen, hs⟩ := boot_eq_some.1 h
  refine ⟨hlen, fun k hk => ?_, fun k hlo hhi => ?_, by rw [hs]⟩
  · rw [memRead_boot h (by omega), List.getD_eq_getElem _ _ hk]
  · rw [memRead_boot h (by omega), List.getD_eq_default _ _ hlo]

/-- Settles O50: a load meets the invariant and a run keeps it, and a running machine has a next state. -/
theorem runOfAnyProgramReportsItsEnd : Obligations.RunOfAnyProgramReportsItsEnd := by
  intro bs n s t hboot hrun
  have ht : t.Inv := stepsTo_inv (boot_inv hboot) hrun
  obtain ⟨hsteps, -⟩ := runningMachineAlwaysSteps
  refine ⟨fun hr => ⟨ht.fault_eq_none (by simp [hr]), hsteps t hr⟩, fun hr => ht.fault_eq_none (by simp [hr]), ?_⟩
  exact ht.exists_fault

end Sys2Proof.Machine
end
